-- ==== Sys2Proof/Word.lean ====
section
/-! DEFINITION. The machine's bit-vector types (R5, R14): data words, bytes, register numbers. -/

namespace Sys2Proof

/-- A 32-bit value: a general register, HI, LO, the program counter, an address, an instruction word (R5, R6). -/
abbrev Word := BitVec 32

/-- The smallest addressable unit of memory (R60). -/
abbrev Byte := BitVec 8

/-- A register number: the 5-bit value of a register field (R14, R20). -/
abbrev Reg := BitVec 5

end Sys2Proof
end

