-- ==== Sys2Proof/Config.lean ====
section
/-! DEFINITION. What is fixed for one machine: the parameter REGION_MAP (R7, R60) and its default value. -/

namespace Sys2Proof

/-- One mapped byte range `[base, base + size)` (R60). Natural numbers: `base + size` never wraps (R61). -/
structure Region where
  base : Nat
  size : Nat
  deriving DecidableEq, Repr

/-- REGION_MAP: the five regions of R60. The hardware leaves their bases and sizes open (spec D1), so the map is a
parameter of the machine: State holds it, and no step changes it (log 1). -/
structure RegionMap where
  text  : Region
  data  : Region
  stack : Region
  ktext : Region
  kdata : Region
  deriving DecidableEq, Repr

/-- The five regions as a list, for the search of R61. -/
def RegionMap.regions (m : RegionMap) : List Region :=
  [m.text, m.data, m.stack, m.ktext, m.kdata]

/-- The spec's default REGION_MAP (the table of R60). DESIGN CHOICE (log 1, unsafe where a claim is about reset):
State.reset takes the default the spec offers for its open parameter. -/
def Config.defaultMap : RegionMap where
  text  := ⟨0x00400000, 0x00100000⟩
  data  := ⟨0x10000000, 0x00100000⟩
  stack := ⟨0x7FF00000, 0x00100000⟩
  ktext := ⟨0x80000000, 0x00100000⟩
  kdata := ⟨0x90000000, 0x00100000⟩

end Sys2Proof
end

