-- ==== Sys2Proof/Machine/State.lean ====
section
/-! DEFINITION. The state of the machine as plain data, the reasons a step can stop, and the state at reset. -/

namespace Sys2Proof.Machine

/-- The outcome codes of a step (R270). -/
inductive OutcomeCode where
  /-- No error: every instruction that completes, and SYSCALL (R274, R275). -/
  | ok
  /-- The word matches no instruction (R271). -/
  | unknownInstruction
  /-- An address or a jump target violates its alignment (R272). -/
  | unalignedAddress
  /-- In the vocabulary, produced by nothing (R273). -/
  | arithmeticOverflow
  deriving DecidableEq, Repr

/-- One copy of the doubly buffered state: PC, general registers, HI, LO (R20, R23, R24, R30). -/
structure Arch where
  pc   : Word
  regs : Vector Word 32
  hi   : Word
  lo   : Word
  deriving DecidableEq, Repr

/-- The bytes of the region buffers: the nonzero ones, addresses strictly rising. An unlisted byte is 0, the value every
buffer byte has when it is created (R60; log 9). -/
abbrev Memory := List Host.Cell

/-- The machine's state. `cur` is the committed copy and `nxt` the copy a step builds (R30); the run flag (R26), the
instruction counter (R27) and memory (R60) exist once. -/
structure State where
  /-- the committed state, which every read of an instruction reads (R31). -/
  cur     : Arch
  /-- the state being built, which every register write of an instruction writes (R31). -/
  nxt     : Arch
  /-- the run flag (R26). -/
  run     : Bool
  /-- the instruction counter, an unbounded natural number (R27). -/
  count   : Nat
  /-- what the last step returned (R270). The model's own field (log 2): the spec returns it and keeps it nowhere (R45). -/
  outcome : OutcomeCode
  /-- REGION_MAP, the parameter of R60, fixed for the machine (log 1). -/
  map     : RegionMap
  /-- the contents of the regions (R60). -/
  mem     : Memory
  deriving DecidableEq, Repr

/-- Why the machine stops for good. -/
inductive Fault where
  /-- Raised by DIV and DIVU with a zero divisor and by DIV of 0x80000000 by 0xFFFFFFFF, with the PC and the word of the
  instruction: the model fault the spec itself states (R276). No commit, no successor. Safe: a claim about a run that
  divides so cannot be proved (log 4). -/
  | undefinedDivide (pc word : Word)
  deriving DecidableEq, Repr

/-- Why something has no meaning in the model. -/
inductive Refusal where
  /-- Raised by an arm of exec whose instruction has no meaning yet; no arm raises it now. Safe. -/
  | notModelled (mnemonic : String)
  /-- Raised by the host's read32, write32 and explain on an address whose four bytes run past the end of its region
  (R65, spec D14); no step raises it. Safe: the access is outside the model's domain. -/
  | hostAccessPastRegion (address : Word)
  deriving DecidableEq, Repr

/-- What executing an instruction answers. -/
abbrev Result := Host.Outcome State Fault Refusal

/-- One buffer at reset: PC at TEXT_BASE and everything else 0 (R33). The one TEXT_BASE of a well-formed map that is no
32-bit address, 2^32 of an empty TEXT, gives PC 0 (DESIGN CHOICE, log 10, unsafe for a
claim about the reset PC of that map). -/
def Arch.reset (map : RegionMap) : Arch where
  pc   := BitVec.ofNat 32 map.text.base
  regs := Vector.replicate 32 0
  hi   := 0
  lo   := 0

/-- The machine right after it is created with the given REGION_MAP (R33, R300 to R302). The outcome is a DESIGN CHOICE
(log 2): no step has returned yet. -/
def State.resetWith (map : RegionMap) : State where
  cur     := Arch.reset map
  nxt     := Arch.reset map
  run     := true
  count   := 0
  outcome := .ok
  map     := map
  mem     := []

/-- The machine right after reset under the spec's default REGION_MAP (R33, R60; log 1). -/
def State.reset : State :=
  State.resetWith Config.defaultMap

end Sys2Proof.Machine
end

