-- ==== Sys2Proof/Machine/Flags.lean ====
section
/-! DEFINITION. Conditions. The core has no flags and no condition codes (R28): a comparison's result is a word written
to a general register, and a branch's condition is computed within its own step from general registers. -/

namespace Sys2Proof.Machine

/-- `bool32(c)` (R12). -/
def bool32 (c : Bool) : Word :=
  if c then 1 else 0

/-- `s(v) < s(w)` (R12). -/
def ltSigned (v w : Word) : Bool :=
  decide (v.toInt < w.toInt)

/-- `u(v) < u(w)` (R12). -/
def ltUnsigned (v w : Word) : Bool :=
  decide (v.toNat < w.toNat)

/-- `s(v) < 0` (R192). -/
def isNegative (v : Word) : Bool :=
  ltSigned v 0

/-- `s(v) <= 0` (R198). -/
def isNonPositive (v : Word) : Bool :=
  decide (v.toInt ≤ 0)

end Sys2Proof.Machine
end

