-- ==== Sys2Proof/Syntax.lean ====
section
/-! DEFINITION. The instructions of the machine: one constructor per row of the opcode table (R2, R88 to R90).
Operands stand in the order of the assembly form (R111). A field the instruction ignores (R92) is no operand, so an
instruction term does not hold it (log 8). -/

namespace Sys2Proof

/-- The 53 instructions (R2). Every operand's type is exactly as wide as its field (R81, R83). -/
inductive Instr where
  | sll (rd rt : Reg) (shamt : BitVec 5)   -- SLL (R120): shift left logical
  | srl (rd rt : Reg) (shamt : BitVec 5)   -- SRL (R121): shift right logical
  | sra (rd rt : Reg) (shamt : BitVec 5)   -- SRA (R122): shift right arithmetic
  | sllv (rd rt rs : Reg)                  -- SLLV (R123): shift left logical variable
  | srlv (rd rt rs : Reg)                  -- SRLV (R124): shift right logical variable
  | srav (rd rt rs : Reg)                  -- SRAV (R125): shift right arithmetic variable
  | jr (rs : Reg)                          -- JR (R130): jump register
  | jalr (rd rs : Reg)                     -- JALR (R131): jump and link register
  | syscall                                -- SYSCALL (R132): system call: halt
  | mfhi (rd : Reg)                        -- MFHI (R140): move from HI
  | mthi (rs : Reg)                        -- MTHI (R141): move to HI
  | mflo (rd : Reg)                        -- MFLO (R142): move from LO
  | mtlo (rs : Reg)                        -- MTLO (R143): move to LO
  | mult (rs rt : Reg)                     -- MULT (R144): multiply, signed
  | multu (rs rt : Reg)                    -- MULTU (R145): multiply, unsigned
  | div (rs rt : Reg)                      -- DIV (R146): divide, signed
  | divu (rs rt : Reg)                     -- DIVU (R147): divide, unsigned
  | add (rd rs rt : Reg)                   -- ADD (R160): add
  | addu (rd rs rt : Reg)                  -- ADDU (R161): add, unsigned form
  | sub (rd rs rt : Reg)                   -- SUB (R162): subtract
  | subu (rd rs rt : Reg)                  -- SUBU (R163): subtract, unsigned form
  | and (rd rs rt : Reg)                   -- AND (R164): bitwise and
  | or (rd rs rt : Reg)                    -- OR (R165): bitwise or
  | xor (rd rs rt : Reg)                   -- XOR (R166): bitwise exclusive or
  | nor (rd rs rt : Reg)                   -- NOR (R167): bitwise not-or
  | slt (rd rs rt : Reg)                   -- SLT (R168): set on less than, signed
  | sltu (rd rs rt : Reg)                  -- SLTU (R169): set on less than, unsigned
  | bltz (rs : Reg) (imm : BitVec 16)      -- BLTZ (R192): branch on less than zero
  | bgez (rs : Reg) (imm : BitVec 16)      -- BGEZ (R193): branch on greater than or equal to zero
  | bltzal (rs : Reg) (imm : BitVec 16)    -- BLTZAL (R194): branch on less than zero and link
  | bgezal (rs : Reg) (imm : BitVec 16)    -- BGEZAL (R195): branch on greater than or equal to zero and link
  | j (target : BitVec 26)                 -- J (R180): jump
  | jal (target : BitVec 26)               -- JAL (R181): jump and link
  | beq (rs rt : Reg) (imm : BitVec 16)    -- BEQ (R196): branch on equal
  | bne (rs rt : Reg) (imm : BitVec 16)    -- BNE (R197): branch on not equal
  | blez (rs : Reg) (imm : BitVec 16)      -- BLEZ (R198): branch on less than or equal to zero
  | bgtz (rs : Reg) (imm : BitVec 16)      -- BGTZ (R199): branch on greater than zero
  | addi (rt rs : Reg) (imm : BitVec 16)   -- ADDI (R210): add immediate
  | addiu (rt rs : Reg) (imm : BitVec 16)  -- ADDIU (R211): add immediate, unsigned form
  | slti (rt rs : Reg) (imm : BitVec 16)   -- SLTI (R212): set on less than immediate, signed
  | sltiu (rt rs : Reg) (imm : BitVec 16)  -- SLTIU (R213): set on less than immediate, unsigned
  | andi (rt rs : Reg) (imm : BitVec 16)   -- ANDI (R214): and immediate
  | ori (rt rs : Reg) (imm : BitVec 16)    -- ORI (R215): or immediate
  | xori (rt rs : Reg) (imm : BitVec 16)   -- XORI (R216): exclusive-or immediate
  | lui (rt : Reg) (imm : BitVec 16)       -- LUI (R217): load upper immediate
  | lb (rt rs : Reg) (imm : BitVec 16)     -- LB (R230): load byte, signed
  | lh (rt rs : Reg) (imm : BitVec 16)     -- LH (R231): load halfword, signed
  | lw (rt rs : Reg) (imm : BitVec 16)     -- LW (R232): load word
  | lbu (rt rs : Reg) (imm : BitVec 16)    -- LBU (R233): load byte, unsigned
  | lhu (rt rs : Reg) (imm : BitVec 16)    -- LHU (R234): load halfword, unsigned
  | sb (rt rs : Reg) (imm : BitVec 16)     -- SB (R250): store byte
  | sh (rt rs : Reg) (imm : BitVec 16)     -- SH (R251): store halfword
  | sw (rt rs : Reg) (imm : BitVec 16)     -- SW (R252): store word
  deriving DecidableEq, Repr

/-- The instruction's mnemonic, as the opcode table spells it. -/
def Instr.mnemonic : Instr → String
  | .sll _ _ _ => "SLL"
  | .srl _ _ _ => "SRL"
  | .sra _ _ _ => "SRA"
  | .sllv _ _ _ => "SLLV"
  | .srlv _ _ _ => "SRLV"
  | .srav _ _ _ => "SRAV"
  | .jr _ => "JR"
  | .jalr _ _ => "JALR"
  | .syscall => "SYSCALL"
  | .mfhi _ => "MFHI"
  | .mthi _ => "MTHI"
  | .mflo _ => "MFLO"
  | .mtlo _ => "MTLO"
  | .mult _ _ => "MULT"
  | .multu _ _ => "MULTU"
  | .div _ _ => "DIV"
  | .divu _ _ => "DIVU"
  | .add _ _ _ => "ADD"
  | .addu _ _ _ => "ADDU"
  | .sub _ _ _ => "SUB"
  | .subu _ _ _ => "SUBU"
  | .and _ _ _ => "AND"
  | .or _ _ _ => "OR"
  | .xor _ _ _ => "XOR"
  | .nor _ _ _ => "NOR"
  | .slt _ _ _ => "SLT"
  | .sltu _ _ _ => "SLTU"
  | .bltz _ _ => "BLTZ"
  | .bgez _ _ => "BGEZ"
  | .bltzal _ _ => "BLTZAL"
  | .bgezal _ _ => "BGEZAL"
  | .j _ => "J"
  | .jal _ => "JAL"
  | .beq _ _ _ => "BEQ"
  | .bne _ _ _ => "BNE"
  | .blez _ _ => "BLEZ"
  | .bgtz _ _ => "BGTZ"
  | .addi _ _ _ => "ADDI"
  | .addiu _ _ _ => "ADDIU"
  | .slti _ _ _ => "SLTI"
  | .sltiu _ _ _ => "SLTIU"
  | .andi _ _ _ => "ANDI"
  | .ori _ _ _ => "ORI"
  | .xori _ _ _ => "XORI"
  | .lui _ _ => "LUI"
  | .lb _ _ _ => "LB"
  | .lh _ _ _ => "LH"
  | .lw _ _ _ => "LW"
  | .lbu _ _ _ => "LBU"
  | .lhu _ _ _ => "LHU"
  | .sb _ _ _ => "SB"
  | .sh _ _ _ => "SH"
  | .sw _ _ _ => "SW"

end Sys2Proof
end

