-- ==== Sys2Proof/Decode.lean ====
section
/-! DEFINITION. The decoder (R80 to R99), total on every word and on every list of bytes, rejecting by name; after it
the encoder, written from the same tables. -/

namespace Sys2Proof

/-- The fields R82 extracts from every word, whatever its format. -/
structure Fields where
  opcode : BitVec 6
  rs     : Reg
  rt     : Reg
  rd     : Reg
  shamt  : BitVec 5
  funct  : BitVec 6
  imm    : BitVec 16
  target : BitVec 26
  deriving DecidableEq, Repr

/-- R82: a pure function of the word. -/
def decodeFields (w : Word) : Fields where
  opcode := w.extractLsb' 26 6
  rs     := w.extractLsb' 21 5
  rt     := w.extractLsb' 16 5
  rd     := w.extractLsb' 11 5
  shamt  := w.extractLsb' 6 5
  funct  := w.extractLsb' 0 6
  imm    := w.extractLsb' 0 16
  target := w.extractLsb' 0 26

/-- Why a word is UnknownInstruction (R99), or a byte list no instruction (R80). -/
inductive DecodeReject where
  /-- opcode 0 with a `funct` R88 does not assign. -/
  | unassignedFunct (funct : BitVec 6)
  /-- an opcode R89 does not assign. -/
  | unassignedOpcode (opcode : BitVec 6)
  /-- opcode 1 with an `rt` outside R90 (R87, R200). -/
  | unassignedRegimm (rt : BitVec 5)
  /-- fewer than the four bytes of an instruction (R80); no fetch of the machine can meet it. -/
  | truncated
  deriving DecidableEq, Repr

/-- What decoding answers. -/
inductive Decoded where
  | instr (i : Instr)
  | reject (why : DecodeReject)
  deriving DecidableEq, Repr

/-- Opcode 0, dispatched on `funct` (R85, R88). -/
def decodeSpecial (f : Fields) : Decoded :=
  match f.funct with
  | 0x00#6 => .instr (.sll f.rd f.rt f.shamt)
  | 0x02#6 => .instr (.srl f.rd f.rt f.shamt)
  | 0x03#6 => .instr (.sra f.rd f.rt f.shamt)
  | 0x04#6 => .instr (.sllv f.rd f.rt f.rs)
  | 0x06#6 => .instr (.srlv f.rd f.rt f.rs)
  | 0x07#6 => .instr (.srav f.rd f.rt f.rs)
  | 0x08#6 => .instr (.jr f.rs)
  | 0x09#6 => .instr (.jalr f.rd f.rs)
  | 0x0C#6 => .instr .syscall
  | 0x10#6 => .instr (.mfhi f.rd)
  | 0x11#6 => .instr (.mthi f.rs)
  | 0x12#6 => .instr (.mflo f.rd)
  | 0x13#6 => .instr (.mtlo f.rs)
  | 0x18#6 => .instr (.mult f.rs f.rt)
  | 0x19#6 => .instr (.multu f.rs f.rt)
  | 0x1A#6 => .instr (.div f.rs f.rt)
  | 0x1B#6 => .instr (.divu f.rs f.rt)
  | 0x20#6 => .instr (.add f.rd f.rs f.rt)
  | 0x21#6 => .instr (.addu f.rd f.rs f.rt)
  | 0x22#6 => .instr (.sub f.rd f.rs f.rt)
  | 0x23#6 => .instr (.subu f.rd f.rs f.rt)
  | 0x24#6 => .instr (.and f.rd f.rs f.rt)
  | 0x25#6 => .instr (.or f.rd f.rs f.rt)
  | 0x26#6 => .instr (.xor f.rd f.rs f.rt)
  | 0x27#6 => .instr (.nor f.rd f.rs f.rt)
  | 0x2A#6 => .instr (.slt f.rd f.rs f.rt)
  | 0x2B#6 => .instr (.sltu f.rd f.rs f.rt)
  | unassigned => .reject (.unassignedFunct unassigned)

/-- Opcode 1, REGIMM, dispatched on `rt` (R87, R90). -/
def decodeRegimm (f : Fields) : Decoded :=
  match f.rt with
  | 0x00#5 => .instr (.bltz f.rs f.imm)
  | 0x01#5 => .instr (.bgez f.rs f.imm)
  | 0x10#5 => .instr (.bltzal f.rs f.imm)
  | 0x11#5 => .instr (.bgezal f.rs f.imm)
  | unassigned => .reject (.unassignedRegimm unassigned)

/-- The whole dispatch on the extracted fields (R84, R86, R89). -/
def decodeDispatch (f : Fields) : Decoded :=
  match f.opcode with
  | 0x00#6 => decodeSpecial f
  | 0x01#6 => decodeRegimm f
  | 0x02#6 => .instr (.j f.target)
  | 0x03#6 => .instr (.jal f.target)
  | 0x04#6 => .instr (.beq f.rs f.rt f.imm)
  | 0x05#6 => .instr (.bne f.rs f.rt f.imm)
  | 0x06#6 => .instr (.blez f.rs f.imm)
  | 0x07#6 => .instr (.bgtz f.rs f.imm)
  | 0x08#6 => .instr (.addi f.rt f.rs f.imm)
  | 0x09#6 => .instr (.addiu f.rt f.rs f.imm)
  | 0x0A#6 => .instr (.slti f.rt f.rs f.imm)
  | 0x0B#6 => .instr (.sltiu f.rt f.rs f.imm)
  | 0x0C#6 => .instr (.andi f.rt f.rs f.imm)
  | 0x0D#6 => .instr (.ori f.rt f.rs f.imm)
  | 0x0E#6 => .instr (.xori f.rt f.rs f.imm)
  | 0x0F#6 => .instr (.lui f.rt f.imm)
  | 0x20#6 => .instr (.lb f.rt f.rs f.imm)
  | 0x21#6 => .instr (.lh f.rt f.rs f.imm)
  | 0x23#6 => .instr (.lw f.rt f.rs f.imm)
  | 0x24#6 => .instr (.lbu f.rt f.rs f.imm)
  | 0x25#6 => .instr (.lhu f.rt f.rs f.imm)
  | 0x28#6 => .instr (.sb f.rt f.rs f.imm)
  | 0x29#6 => .instr (.sh f.rt f.rs f.imm)
  | 0x2B#6 => .instr (.sw f.rt f.rs f.imm)
  | unassigned => .reject (.unassignedOpcode unassigned)

/-- The instruction a word stands for, or why it stands for none (R84 to R90, R99). -/
def decodeWord (w : Word) : Decoded :=
  decodeDispatch (decodeFields w)

/-- A word from its four bytes, lowest address first (R64). -/
def wordOfBytes (b0 b1 b2 b3 : Byte) : Word :=
  b3 ++ b2 ++ b1 ++ b0

/-- The four bytes of a word, lowest address first (R64). -/
def bytesOfWord (w : Word) : List Byte :=
  [w.extractLsb' 0 8, w.extractLsb' 8 8, w.extractLsb' 16 8, w.extractLsb' 24 8]

/-- Decode the instruction at the head of a byte list, lowest address first, and give the bytes after it. Every
instruction is four bytes (R80). -/
def decodeBytes : List Byte → Decoded × List Byte
  | b0 :: b1 :: b2 :: b3 :: rest => (decodeWord (wordOfBytes b0 b1 b2 b3), rest)
  | short => (.reject .truncated, short)

/-- An R-type word (R81). -/
def encodeR (rs rt rd shamt : BitVec 5) (funct : BitVec 6) : Word :=
  0x00#6 ++ rs ++ rt ++ rd ++ shamt ++ funct

/-- An I-type word (R81). -/
def encodeI (opcode : BitVec 6) (rs rt : BitVec 5) (imm : BitVec 16) : Word :=
  opcode ++ rs ++ rt ++ imm

/-- A J-type word (R81). -/
def encodeJ (opcode : BitVec 6) (target : BitVec 26) : Word :=
  opcode ++ target

/-- The word of an instruction, from the tables of R88 to R90. DESIGN CHOICE (log 8, safe): the fields the instruction
ignores (R92) are written as zeros. -/
def encode : Instr → Word
  | .sll rd rt shamt => encodeR 0 rt rd shamt 0x00#6
  | .srl rd rt shamt => encodeR 0 rt rd shamt 0x02#6
  | .sra rd rt shamt => encodeR 0 rt rd shamt 0x03#6
  | .sllv rd rt rs => encodeR rs rt rd 0 0x04#6
  | .srlv rd rt rs => encodeR rs rt rd 0 0x06#6
  | .srav rd rt rs => encodeR rs rt rd 0 0x07#6
  | .jr rs => encodeR rs 0 0 0 0x08#6
  | .jalr rd rs => encodeR rs 0 rd 0 0x09#6
  | .syscall => encodeR 0 0 0 0 0x0C#6
  | .mfhi rd => encodeR 0 0 rd 0 0x10#6
  | .mthi rs => encodeR rs 0 0 0 0x11#6
  | .mflo rd => encodeR 0 0 rd 0 0x12#6
  | .mtlo rs => encodeR rs 0 0 0 0x13#6
  | .mult rs rt => encodeR rs rt 0 0 0x18#6
  | .multu rs rt => encodeR rs rt 0 0 0x19#6
  | .div rs rt => encodeR rs rt 0 0 0x1A#6
  | .divu rs rt => encodeR rs rt 0 0 0x1B#6
  | .add rd rs rt => encodeR rs rt rd 0 0x20#6
  | .addu rd rs rt => encodeR rs rt rd 0 0x21#6
  | .sub rd rs rt => encodeR rs rt rd 0 0x22#6
  | .subu rd rs rt => encodeR rs rt rd 0 0x23#6
  | .and rd rs rt => encodeR rs rt rd 0 0x24#6
  | .or rd rs rt => encodeR rs rt rd 0 0x25#6
  | .xor rd rs rt => encodeR rs rt rd 0 0x26#6
  | .nor rd rs rt => encodeR rs rt rd 0 0x27#6
  | .slt rd rs rt => encodeR rs rt rd 0 0x2A#6
  | .sltu rd rs rt => encodeR rs rt rd 0 0x2B#6
  | .bltz rs imm => encodeI 0x01#6 rs 0x00#5 imm
  | .bgez rs imm => encodeI 0x01#6 rs 0x01#5 imm
  | .bltzal rs imm => encodeI 0x01#6 rs 0x10#5 imm
  | .bgezal rs imm => encodeI 0x01#6 rs 0x11#5 imm
  | .j target => encodeJ 0x02#6 target
  | .jal target => encodeJ 0x03#6 target
  | .beq rs rt imm => encodeI 0x04#6 rs rt imm
  | .bne rs rt imm => encodeI 0x05#6 rs rt imm
  | .blez rs imm => encodeI 0x06#6 rs 0 imm
  | .bgtz rs imm => encodeI 0x07#6 rs 0 imm
  | .addi rt rs imm => encodeI 0x08#6 rs rt imm
  | .addiu rt rs imm => encodeI 0x09#6 rs rt imm
  | .slti rt rs imm => encodeI 0x0A#6 rs rt imm
  | .sltiu rt rs imm => encodeI 0x0B#6 rs rt imm
  | .andi rt rs imm => encodeI 0x0C#6 rs rt imm
  | .ori rt rs imm => encodeI 0x0D#6 rs rt imm
  | .xori rt rs imm => encodeI 0x0E#6 rs rt imm
  | .lui rt imm => encodeI 0x0F#6 0 rt imm
  | .lb rt rs imm => encodeI 0x20#6 rs rt imm
  | .lh rt rs imm => encodeI 0x21#6 rs rt imm
  | .lw rt rs imm => encodeI 0x23#6 rs rt imm
  | .lbu rt rs imm => encodeI 0x24#6 rs rt imm
  | .lhu rt rs imm => encodeI 0x25#6 rs rt imm
  | .sb rt rs imm => encodeI 0x28#6 rs rt imm
  | .sh rt rs imm => encodeI 0x29#6 rs rt imm
  | .sw rt rs imm => encodeI 0x2B#6 rs rt imm

/-- The bytes of an instruction as memory holds them (R64, R80). -/
def encodeBytes (i : Instr) : List Byte :=
  bytesOfWord (encode i)

/-- What the decoder reads from an instruction whose bits are `w`, bit 0 the least significant bit of the word. The
bits at `nbits` and above are 0; the word's bytes are laid out little-endian (R64). -/
def decodeTableWord (nbits w : Nat) : Option Instr :=
  match (decodeBytes (bytesOfWord (BitVec.ofNat 32 (w % 2 ^ nbits)))).1 with
  | .instr i => some i
  | .reject _ => none

end Sys2Proof
end

