-- ==== Sys2Proof/Machine/Ops.lean ====
section
/-! DEFINITION. The named operations over registers, memory and the step cycle: register reads and writes (R13, R31),
`read32` and `write32` (R61, R62), sub-word access (R66, R67), the error path (R278) and the start and end of a step
(R40). -/

namespace Sys2Proof

/-- The address lies inside the region; no wrap-around (R61). -/
def Region.contains (r : Region) (a : Nat) : Bool :=
  decide (r.base ≤ a) && decide (a < r.base + r.size)

/-- The region an address lies in, if any (R61). -/
def RegionMap.regionOf (m : RegionMap) (a : Nat) : Option Region :=
  m.regions.find? fun r => r.contains a

/-- The address lies inside some region (R60). -/
def RegionMap.mapped (m : RegionMap) (a : Nat) : Bool :=
  (m.regionOf a).isSome

end Sys2Proof

namespace Sys2Proof.Machine

/-! Memory as a list of bytes. -/

/-- The canonical form: addresses strictly rising from `lo` on, no zero byte listed. -/
def Memory.wfFrom (lo : Nat) : Memory → Bool
  | [] => true
  | (a, b) :: rest => decide (lo ≤ a) && b != 0 && Memory.wfFrom (a + 1) rest

/-- The canonical form of a memory. -/
def Memory.wf (m : Memory) : Bool :=
  Memory.wfFrom 0 m

/-- The byte at an address; 0 where none is listed (R60). -/
def Memory.byteAt : Memory → Nat → Byte
  | [], _ => 0
  | (k, b) :: rest, a => if k = a then b else Memory.byteAt rest a

/-- Write one byte, keeping the canonical form: a zero byte is not listed. -/
def Memory.setByte : Memory → Nat → Byte → Memory
  | [], a, b => if b = 0 then [] else [(a, b)]
  | (k, c) :: rest, a, b =>
    if a < k then (if b = 0 then (k, c) :: rest else (a, b) :: (k, c) :: rest)
    else if a = k then (if b = 0 then rest else (a, b) :: rest)
    else (k, c) :: Memory.setByte rest a b

/-- The little-endian word of the four bytes from `a` on (R61, R64). -/
def Memory.wordAt (m : Memory) (a : Nat) : Word :=
  wordOfBytes (m.byteAt a) (m.byteAt (a + 1)) (m.byteAt (a + 2)) (m.byteAt (a + 3))

/-- Write the four bytes of a word from `a` on, little-endian (R62, R64). -/
def Memory.setWord (m : Memory) (a : Nat) (v : Word) : Memory :=
  (((m.setByte a (v.extractLsb' 0 8)).setByte (a + 1) (v.extractLsb' 8 8)).setByte (a + 2)
    (v.extractLsb' 16 8)).setByte (a + 3) (v.extractLsb' 24 8)

/-! Registers: reads are of `cur`, writes go to `nxt` (R13, R31). -/

/-- `REGS[r]` of one buffer (R20). -/
def Arch.reg (a : Arch) (r : Reg) : Word :=
  a.regs[r.toNat]'(r.isLt)

/-- `REGS[r] := v` in one buffer. Register 0 is written like any other (R21). -/
def Arch.setReg (a : Arch) (r : Reg) (v : Word) : Arch :=
  { a with regs := a.regs.set r.toNat v r.isLt }

/-- `x[r]`: a register read (R13). -/
def State.x (s : State) (r : Reg) : Word :=
  s.cur.reg r

/-- `x[r] <- v`: a register write (R13). -/
def State.setX (s : State) (r : Reg) (v : Word) : State :=
  { s with nxt := s.nxt.setReg r v }

/-- `HI <- v` (R13, R23). -/
def State.setHi (s : State) (v : Word) : State :=
  { s with nxt := { s.nxt with hi := v } }

/-- `LO <- v` (R13, R23). -/
def State.setLo (s : State) (v : Word) : State :=
  { s with nxt := { s.nxt with lo := v } }

/-- `pc`: the address of the instruction being executed (R13, R24). -/
def State.pc (s : State) : Word :=
  s.cur.pc

/-- `pc <- target`: overrides the `pc + 4` that fetch placed in `nxt.PC` (R13, R190). -/
def State.jumpTo (s : State) (target : Word) : State :=
  { s with nxt := { s.nxt with pc := target } }

/-- The link value, `pc + 4` modulo 2^32 (R131, R181, R194). -/
def State.link (s : State) : Word :=
  s.pc + 4

/-- `halt`: the run flag becomes false (R13, R26). -/
def State.halt (s : State) : State :=
  { s with run := false }

/-! Memory access. -/

/-- `read32(a)`: the little-endian word at a mapped address, 0 at an unmapped one (R61, R63). Total past a
region's end, where no step reads (log 5). -/
def State.read32 (s : State) (a : Word) : Word :=
  if s.map.mapped a.toNat then s.mem.wordAt a.toNat else 0

/-- `write32(a, v)`: a write to an unmapped address is dropped (R62, R63). Total past a region's
end, where no step writes (log 5). -/
def State.write32 (s : State) (a v : Word) : State :=
  if s.map.mapped a.toNat then { s with mem := s.mem.setWord a.toNat v } else s

/-- The address of the word that contains `a`: `a & 0xFFFFFFFC` (R66, R67). -/
def wordAddr (a : Word) : Word :=
  a &&& 0xFFFFFFFC#32

/-- The first bit of `a`'s lane in the containing word: `8*u(a[1:0])` (R66, R67). -/
def laneShift (a : Word) : Nat :=
  8 * (a.extractLsb' 0 2).toNat

/-- `MemRead(a, 4)`; the caller has checked the alignment (R66). -/
def State.memRead32 (s : State) (a : Word) : Word :=
  s.read32 a

/-- `MemRead(a, 2)`: a lane of the containing word; the caller has checked the alignment (R66). -/
def State.memRead16 (s : State) (a : Word) : BitVec 16 :=
  (s.read32 (wordAddr a)).extractLsb' (laneShift a) 16

/-- `MemRead(a, 1)` (R66). -/
def State.memRead8 (s : State) (a : Word) : Byte :=
  (s.read32 (wordAddr a)).extractLsb' (laneShift a) 8

/-- Merge the bits of `v` that `mask` selects, both moved to `a`'s lane, into the containing word (R67). -/
def State.mergeWrite (s : State) (a mask v : Word) : State :=
  let m := mask <<< laneShift a
  let old := s.read32 (wordAddr a)
  s.write32 (wordAddr a) ((old &&& ~~~m) ||| ((v <<< laneShift a) &&& m))

/-- `MemWrite(a, 4, v)`; the caller has checked the alignment (R67). -/
def State.memWrite32 (s : State) (a v : Word) : State :=
  s.write32 a v

/-- `MemWrite(a, 2, v)`: the low halfword of `v`; the caller has checked the alignment (R67). -/
def State.memWrite16 (s : State) (a v : Word) : State :=
  s.mergeWrite a 0x0000FFFF#32 v

/-- `MemWrite(a, 1, v)`: the low byte of `v` (R67). -/
def State.memWrite8 (s : State) (a v : Word) : State :=
  s.mergeWrite a 0x000000FF#32 v

/-! The error path, the model fault and the step cycle. -/

/-- `raise o`: the entry into the exceptional state, R40 step (6) and R278 (log 3). The PC is frozen at the instruction,
the run flag cleared, the outcome returned; nothing is saved elsewhere and control goes nowhere. There is no return
instruction (R279): the host writes the run flag (`State.hostSetRun`) and steps again. -/
def State.raise (s : State) (o : OutcomeCode) : State :=
  { s with nxt := { s.nxt with pc := s.cur.pc }, run := false, outcome := o }

/-- The instruction word at the committed PC: R40 step (4). An unmapped PC fetches 0. -/
def State.fetchWord (s : State) : Word :=
  s.read32 s.cur.pc

/-- `fault UndefinedDivide`, with the PC and the word of the instruction (R13, R276; log 4). -/
def State.divideFault (s : State) : Result :=
  .fault (.undefinedDivide s.cur.pc s.fetchWord)

/-- R40 steps (1) to (3): zero register 0, copy `cur` to `nxt`, advance `nxt.PC`. The step's outcome is Ok until an
instruction raises another (R45; log 2). -/
def State.beginStep (s : State) : State :=
  let cur := s.cur.setReg 0 0
  { s with cur := cur, nxt := { cur with pc := cur.pc + 4 }, outcome := .ok }

/-- R40 steps (7) and (8): `nxt` becomes the committed state, whatever the outcome, and the step is counted. -/
def State.commit (s : State) : State :=
  { s with cur := s.nxt, count := s.count + 1 }

/-- `s` with the instruction whose low `nbits` bits are `w` (the bits above are 0) stored at the committed PC, as the
loader stores a word (R306). -/
def State.placeAtPc (s : State) (nbits w : Nat) : State :=
  s.write32 s.cur.pc (BitVec.ofNat 32 (w % 2 ^ nbits))

end Sys2Proof.Machine
end

