-- ==== Sys2Proof/Machine/Operands.lean ====
section
/-! DEFINITION. How each operand is formed (R83): immediates, shift amounts, branch and jump targets, effective
addresses, and the alignment each access needs (R68). -/

namespace Sys2Proof.Machine

/-- `sext_16(imm)` (R12, R83). -/
def signedImm (imm : BitVec 16) : Word :=
  imm.signExtend 32

/-- `zext_16(imm)` (R12, R83). -/
def unsignedImm (imm : BitVec 16) : Word :=
  imm.setWidth 32

/-- `imm << 16`, low 16 bits zero (R83, R217). -/
def upperImm (imm : BitVec 16) : Word :=
  imm ++ 0#16

/-- The immediate shift amount, `zext_5(shamt)`, 0 to 31 (R83). -/
def shiftAmount (shamt : BitVec 5) : Nat :=
  shamt.toNat

/-- The variable shift amount, `x[rs] & 0x1F`, 0 to 31 (R83, R123). -/
def shiftAmountVar (v : Word) : Nat :=
  (v &&& 0x1F#32).toNat

/-- The branch target, `pc + 4 + (sext_16(imm) << 2)` modulo 2^32 (R191). -/
def State.branchTarget (s : State) (imm : BitVec 16) : Word :=
  s.pc + 4#32 + (signedImm imm <<< 2)

/-- The jump target, `(pc & 0xF0000000) | ((target << 2) & 0x0FFFFFFF)`: the upper four bits are those of the jump's own
address (R83, R180). -/
def State.jumpTarget (s : State) (target : BitVec 26) : Word :=
  (s.pc &&& 0xF0000000#32) ||| ((target.setWidth 32 <<< 2) &&& 0x0FFFFFFF#32)

/-- The effective address of every load and store, `x[rs] + sext_16(imm)` modulo 2^32 (R235). -/
def State.effectiveAddress (s : State) (rs : Reg) (imm : BitVec 16) : Word :=
  s.x rs + signedImm imm

/-- `a[1:0] = 0`: what LW, SW and a register jump's target need (R68). -/
def aligned4 (a : Word) : Bool :=
  a.extractLsb' 0 2 == 0

/-- `a[0] = 0`: what LH, LHU and SH need (R68). -/
def aligned2 (a : Word) : Bool :=
  a.extractLsb' 0 1 == 0

end Sys2Proof.Machine
end

