-- ==== Sys2Proof/Machine/AluImmediate.lean ====
section
/-! DEFINITION. Immediate arithmetic, logical and compare (R210 to R217). None raises an outcome other than Ok. -/

namespace Sys2Proof.Machine

/-- The shape of the family: `x[rt] <- f(x[rs], v)` for the extended immediate `v`. -/
def State.aluImmediate (s : State) (f : Word → Word → Word) (rt rs : Reg) (v : Word) : Result :=
  .next (s.setX rt (f (s.x rs) v))

/-- ADDI (R210): wraps modulo 2^32, no trap. -/
def execAddi (rt rs : Reg) (imm : BitVec 16) (s : State) : Result :=
  s.aluImmediate (· + ·) rt rs (signedImm imm)

/-- ADDIU (R211): the immediate is sign-extended. -/
def execAddiu (rt rs : Reg) (imm : BitVec 16) (s : State) : Result :=
  s.aluImmediate (· + ·) rt rs (signedImm imm)

/-- SLTI (R212). -/
def execSlti (rt rs : Reg) (imm : BitVec 16) (s : State) : Result :=
  s.aluImmediate (fun v w => bool32 (ltSigned v w)) rt rs (signedImm imm)

/-- SLTIU (R213): the immediate is sign-extended, then compared unsigned. -/
def execSltiu (rt rs : Reg) (imm : BitVec 16) (s : State) : Result :=
  s.aluImmediate (fun v w => bool32 (ltUnsigned v w)) rt rs (signedImm imm)

/-- ANDI (R214). -/
def execAndi (rt rs : Reg) (imm : BitVec 16) (s : State) : Result :=
  s.aluImmediate (· &&& ·) rt rs (unsignedImm imm)

/-- ORI (R215). -/
def execOri (rt rs : Reg) (imm : BitVec 16) (s : State) : Result :=
  s.aluImmediate (· ||| ·) rt rs (unsignedImm imm)

/-- XORI (R216). -/
def execXori (rt rs : Reg) (imm : BitVec 16) (s : State) : Result :=
  s.aluImmediate (· ^^^ ·) rt rs (unsignedImm imm)

/-- LUI (R217): independent of every register. -/
def execLui (rt : Reg) (imm : BitVec 16) (s : State) : Result :=
  .next (s.setX rt (upperImm imm))

end Sys2Proof.Machine
end

