-- ==== Sys2Proof/Machine/AluRegister.lean ====
section
/-! DEFINITION. Register arithmetic, logical and compare (R160 to R169). None raises an outcome other than Ok. -/

namespace Sys2Proof.Machine

/-- The shape of the family: `x[rd] <- f(x[rs], x[rt])`. -/
def State.aluRegister (s : State) (f : Word → Word → Word) (rd rs rt : Reg) : Result :=
  .next (s.setX rd (f (s.x rs) (s.x rt)))

/-- ADD (R160): wraps modulo 2^32, no trap. -/
def execAdd (rd rs rt : Reg) (s : State) : Result :=
  s.aluRegister (· + ·) rd rs rt

/-- ADDU (R161). -/
def execAddu (rd rs rt : Reg) (s : State) : Result :=
  s.aluRegister (· + ·) rd rs rt

/-- SUB (R162): wraps modulo 2^32, no trap. -/
def execSub (rd rs rt : Reg) (s : State) : Result :=
  s.aluRegister (· - ·) rd rs rt

/-- SUBU (R163). -/
def execSubu (rd rs rt : Reg) (s : State) : Result :=
  s.aluRegister (· - ·) rd rs rt

/-- AND (R164). -/
def execAnd (rd rs rt : Reg) (s : State) : Result :=
  s.aluRegister (· &&& ·) rd rs rt

/-- OR (R165). -/
def execOr (rd rs rt : Reg) (s : State) : Result :=
  s.aluRegister (· ||| ·) rd rs rt

/-- XOR (R166). -/
def execXor (rd rs rt : Reg) (s : State) : Result :=
  s.aluRegister (· ^^^ ·) rd rs rt

/-- NOR (R167). -/
def execNor (rd rs rt : Reg) (s : State) : Result :=
  s.aluRegister (fun v w => ~~~(v ||| w)) rd rs rt

/-- SLT (R168). -/
def execSlt (rd rs rt : Reg) (s : State) : Result :=
  s.aluRegister (fun v w => bool32 (ltSigned v w)) rd rs rt

/-- SLTU (R169). -/
def execSltu (rd rs rt : Reg) (s : State) : Result :=
  s.aluRegister (fun v w => bool32 (ltUnsigned v w)) rd rs rt

end Sys2Proof.Machine
end

