-- ==== Sys2Proof/Machine/Branch.lean ====
section
/-! DEFINITION. Conditional branches (R192 to R199). There is no delay slot: a branch not taken keeps the `pc + 4` of
fetch (R190). -/

namespace Sys2Proof.Machine

/-- `if c then pc <- bt` (R190, R191). -/
def State.branchIf (s : State) (c : Bool) (imm : BitVec 16) : State :=
  if c then s.jumpTo (s.branchTarget imm) else s

/-- BLTZ (R192). -/
def execBltz (rs : Reg) (imm : BitVec 16) (s : State) : Result :=
  .next (s.branchIf (isNegative (s.x rs)) imm)

/-- BGEZ (R193). -/
def execBgez (rs : Reg) (imm : BitVec 16) (s : State) : Result :=
  .next (s.branchIf (!isNegative (s.x rs)) imm)

/-- BLTZAL (R194): the link is written whether or not the branch is taken. -/
def execBltzal (rs : Reg) (imm : BitVec 16) (s : State) : Result :=
  .next ((s.setX 31 s.link).branchIf (isNegative (s.x rs)) imm)

/-- BGEZAL (R195): the link is written whether or not the branch is taken. -/
def execBgezal (rs : Reg) (imm : BitVec 16) (s : State) : Result :=
  .next ((s.setX 31 s.link).branchIf (!isNegative (s.x rs)) imm)

/-- BEQ (R196). -/
def execBeq (rs rt : Reg) (imm : BitVec 16) (s : State) : Result :=
  .next (s.branchIf (s.x rs == s.x rt) imm)

/-- BNE (R197). -/
def execBne (rs rt : Reg) (imm : BitVec 16) (s : State) : Result :=
  .next (s.branchIf (s.x rs != s.x rt) imm)

/-- BLEZ (R198). -/
def execBlez (rs : Reg) (imm : BitVec 16) (s : State) : Result :=
  .next (s.branchIf (isNonPositive (s.x rs)) imm)

/-- BGTZ (R199). -/
def execBgtz (rs : Reg) (imm : BitVec 16) (s : State) : Result :=
  .next (s.branchIf (!isNonPositive (s.x rs)) imm)

end Sys2Proof.Machine
end

