-- ==== Sys2Proof/Machine/HiLo.lean ====
section
/-! DEFINITION. HI/LO transfer, multiply and divide (R140 to R147). -/

namespace Sys2Proof.Machine

/-- `HI <- p[63:32]; LO <- p[31:0]` for an exact product `p` (R144, R145). -/
def State.setProduct (s : State) (p : Int) : State :=
  let p64 := BitVec.ofInt 64 p
  (s.setHi (p64.extractLsb' 32 32)).setLo (p64.extractLsb' 0 32)

/-- `LO <- q[31:0]; HI <- r[31:0]` for an exact quotient and remainder (R146, R147). -/
def State.setQuotient (s : State) (q r : Int) : State :=
  (s.setLo (BitVec.ofInt 32 q)).setHi (BitVec.ofInt 32 r)

/-- MFHI (R140). -/
def execMfhi (rd : Reg) (s : State) : Result :=
  .next (s.setX rd s.cur.hi)

/-- MTHI (R141). -/
def execMthi (rs : Reg) (s : State) : Result :=
  .next (s.setHi (s.x rs))

/-- MFLO (R142). -/
def execMflo (rd : Reg) (s : State) : Result :=
  .next (s.setX rd s.cur.lo)

/-- MTLO (R143). -/
def execMtlo (rs : Reg) (s : State) : Result :=
  .next (s.setLo (s.x rs))

/-- MULT (R144): the exact signed product. -/
def execMult (rs rt : Reg) (s : State) : Result :=
  .next (s.setProduct ((s.x rs).toInt * (s.x rt).toInt))

/-- MULTU (R145): the exact unsigned product. -/
def execMultu (rs rt : Reg) (s : State) : Result :=
  .next (s.setProduct (Int.ofNat ((s.x rs).toNat * (s.x rt).toNat)))

/-- DIV (R146): quotient truncated toward zero, remainder with the dividend's sign. A zero divisor, and 0x80000000 by
0xFFFFFFFF, are the model fault of R276. -/
def execDiv (rs rt : Reg) (s : State) : Result :=
  if s.x rt = 0 then s.divideFault
  else if s.x rs = 0x80000000#32 ∧ s.x rt = 0xFFFFFFFF#32 then s.divideFault
  else
    let q := (s.x rs).toInt.tdiv (s.x rt).toInt
    .next (s.setQuotient q ((s.x rs).toInt - q * (s.x rt).toInt))

/-- DIVU (R147). A zero divisor is the model fault of R276. -/
def execDivu (rs rt : Reg) (s : State) : Result :=
  if s.x rt = 0 then s.divideFault
  else .next (s.setQuotient (Int.ofNat ((s.x rs).toNat / (s.x rt).toNat)) (Int.ofNat ((s.x rs).toNat % (s.x rt).toNat)))

end Sys2Proof.Machine
end

