-- ==== Sys2Proof/Machine/Jump.lean ====
section
/-! DEFINITION. J-type jumps (R180, R181). There is no delay slot (R190). -/

namespace Sys2Proof.Machine

/-- J (R180). -/
def execJ (target : BitVec 26) (s : State) : Result :=
  .next (s.jumpTo (s.jumpTarget target))

/-- JAL (R181): links `pc + 4` into register 31. -/
def execJal (target : BitVec 26) (s : State) : Result :=
  .next ((s.setX 31 s.link).jumpTo (s.jumpTarget target))

end Sys2Proof.Machine
end

