-- ==== Sys2Proof/Machine/Load.lean ====
section
/-! DEFINITION. Loads (R230 to R236): address, alignment check, read through the containing word, write `x[rt]`. -/

namespace Sys2Proof.Machine

/-- LB (R230). -/
def execLb (rt rs : Reg) (imm : BitVec 16) (s : State) : Result :=
  .next (s.setX rt ((s.memRead8 (s.effectiveAddress rs imm)).signExtend 32))

/-- LH (R231). -/
def execLh (rt rs : Reg) (imm : BitVec 16) (s : State) : Result :=
  let a := s.effectiveAddress rs imm
  if aligned2 a then .next (s.setX rt ((s.memRead16 a).signExtend 32)) else .next (s.raise .unalignedAddress)

/-- LW (R232). -/
def execLw (rt rs : Reg) (imm : BitVec 16) (s : State) : Result :=
  let a := s.effectiveAddress rs imm
  if aligned4 a then .next (s.setX rt (s.memRead32 a)) else .next (s.raise .unalignedAddress)

/-- LBU (R233). -/
def execLbu (rt rs : Reg) (imm : BitVec 16) (s : State) : Result :=
  .next (s.setX rt ((s.memRead8 (s.effectiveAddress rs imm)).setWidth 32))

/-- LHU (R234). -/
def execLhu (rt rs : Reg) (imm : BitVec 16) (s : State) : Result :=
  let a := s.effectiveAddress rs imm
  if aligned2 a then .next (s.setX rt ((s.memRead16 a).setWidth 32)) else .next (s.raise .unalignedAddress)

end Sys2Proof.Machine
end

