-- ==== Sys2Proof/Machine/RegisterJump.lean ====
section
/-! DEFINITION. Register jumps and SYSCALL (R130 to R132). -/

namespace Sys2Proof.Machine

/-- JR (R130): a target that is not a multiple of 4 raises UnalignedAddress before any write. -/
def execJr (rs : Reg) (s : State) : Result :=
  let t := s.x rs
  if aligned4 t then .next (s.jumpTo t) else .next (s.raise .unalignedAddress)

/-- JALR (R131, C2): the alignment check comes first, so a JALR that raises writes no link; `rd = rs` jumps to the old
`x[rs]` (R31). -/
def execJalr (rd rs : Reg) (s : State) : Result :=
  let t := s.x rs
  if aligned4 t then .next ((s.setX rd s.link).jumpTo t) else .next (s.raise .unalignedAddress)

/-- SYSCALL (R132): register 2 becomes 0xA and the run flag false; the outcome is Ok and the PC advances (R275). -/
def execSyscall (s : State) : Result :=
  .next (s.setX 2 0x0000000A#32).halt

end Sys2Proof.Machine
end

