-- ==== Sys2Proof/Machine/Shift.lean ====
section
/-! DEFINITION. The shift instructions (R120 to R125). -/

namespace Sys2Proof.Machine

/-- `x[rd] <- (v << n)[31:0]`. -/
def State.shiftLeft (s : State) (rd : Reg) (v : Word) (n : Nat) : Result :=
  .next (s.setX rd (v <<< n))

/-- `x[rd] <- v >>u n`. -/
def State.shiftRightLogical (s : State) (rd : Reg) (v : Word) (n : Nat) : Result :=
  .next (s.setX rd (v >>> n))

/-- `x[rd] <- v >>s n`. -/
def State.shiftRightArith (s : State) (rd : Reg) (v : Word) (n : Nat) : Result :=
  .next (s.setX rd (v.sshiftRight n))

/-- SLL (R120). -/
def execSll (rd rt : Reg) (shamt : BitVec 5) (s : State) : Result :=
  s.shiftLeft rd (s.x rt) (shiftAmount shamt)

/-- SRL (R121). -/
def execSrl (rd rt : Reg) (shamt : BitVec 5) (s : State) : Result :=
  s.shiftRightLogical rd (s.x rt) (shiftAmount shamt)

/-- SRA (R122). -/
def execSra (rd rt : Reg) (shamt : BitVec 5) (s : State) : Result :=
  s.shiftRightArith rd (s.x rt) (shiftAmount shamt)

/-- SLLV (R123). -/
def execSllv (rd rt rs : Reg) (s : State) : Result :=
  s.shiftLeft rd (s.x rt) (shiftAmountVar (s.x rs))

/-- SRLV (R124). -/
def execSrlv (rd rt rs : Reg) (s : State) : Result :=
  s.shiftRightLogical rd (s.x rt) (shiftAmountVar (s.x rs))

/-- SRAV (R125). -/
def execSrav (rd rt rs : Reg) (s : State) : Result :=
  s.shiftRightArith rd (s.x rt) (shiftAmountVar (s.x rs))

end Sys2Proof.Machine
end

