-- ==== Sys2Proof/Machine/Store.lean ====
section
/-! DEFINITION. Stores (R250 to R253): address, alignment check before any memory access, one `write32`. -/

namespace Sys2Proof.Machine

/-- SB (R250). -/
def execSb (rt rs : Reg) (imm : BitVec 16) (s : State) : Result :=
  .next (s.memWrite8 (s.effectiveAddress rs imm) (s.x rt))

/-- SH (R251). -/
def execSh (rt rs : Reg) (imm : BitVec 16) (s : State) : Result :=
  let a := s.effectiveAddress rs imm
  if aligned2 a then .next (s.memWrite16 a (s.x rt)) else .next (s.raise .unalignedAddress)

/-- SW (R252). -/
def execSw (rt rs : Reg) (imm : BitVec 16) (s : State) : Result :=
  let a := s.effectiveAddress rs imm
  if aligned4 a then .next (s.memWrite32 a (s.x rt)) else .next (s.raise .unalignedAddress)

end Sys2Proof.Machine
end

