-- ==== Sys2Proof/Machine/Step.lean ====
section
/-! DEFINITION. `step()` (R40): fetch, decode, execute, commit. -/

namespace Sys2Proof.Machine

/-- One step (R40). A word that decodes to nothing raises UnknownInstruction (R99, R271); the commit and the count happen
whatever the outcome (R41, R42); a model fault commits nothing (R276). The run flag is not read (R43). -/
def step (s : State) : Host.Outcome State Fault Refusal :=
  let s1 := s.beginStep
  match decodeWord s1.fetchWord with
  | .reject _ => .next (s1.raise .unknownInstruction).commit
  | .instr i =>
    match exec i s1 with
    | .next t => .next t.commit
    | .fault f => .fault f
    | .refused r => .refused r

/-- `s` with the instruction stored where `step` fetches next, the committed PC (log 6). -/
def State.withFetchWord (s : State) (nbits w : Nat) : State :=
  s.placeAtPc nbits w

end Sys2Proof.Machine
end

