-- ==== Sys2Proof/Machine/Interface.lean ====
section
/-! DEFINITION. The block's host-facing operations (R10), which the host invokes only between steps (R8), the loader's
hand-off (R306) and the run loop (R307). `step()` itself is `Machine.step`; its returned outcome is `State.outcome`. -/

namespace Sys2Proof

/-- The four bytes from the address on run past the end of the region that holds it (R65). -/
def RegionMap.pastEnd (m : RegionMap) (a : Nat) : Bool :=
  match m.regionOf a with
  | none => false
  | some r => decide (r.base + r.size < a + 4)

end Sys2Proof

namespace Sys2Proof.Machine

/-- The spec's number of an outcome code (R270). -/
def OutcomeCode.number : OutcomeCode → Nat
  | .ok => 0
  | .unknownInstruction => 1
  | .unalignedAddress => 2
  | .arithmeticOverflow => 3

/-- The host's `read32` (R10, R61). No alignment check; an access past a region's end is refused (R65). -/
def State.hostRead32 (s : State) (a : Word) : Host.Outcome Word Fault Refusal :=
  if s.map.pastEnd a.toNat then .refused (.hostAccessPastRegion a) else .next (s.read32 a)

/-- The host's `write32` (R10, R62). No alignment check; an access past a region's end is refused (R65). -/
def State.hostWrite32 (s : State) (a v : Word) : Result :=
  if s.map.pastEnd a.toNat then .refused (.hostAccessPastRegion a) else .next (s.write32 a v)

/-- The host reads the run flag (R10, R26). -/
def State.hostRun (s : State) : Bool :=
  s.run

/-- The host writes the run flag, to resume after a halt or to pause (R10, R26, R279). -/
def State.hostSetRun (s : State) (b : Bool) : State :=
  { s with run := b }

/-- The host reads the instruction counter (R10, R27). -/
def State.hostCount (s : State) : Nat :=
  s.count

/-- The host reads the committed PC, registers, HI and LO; `nxt` is not exposed (R29). -/
def State.hostCurrent (s : State) : Arch :=
  s.cur

/-- What `explain(addr, outcome)` looks at: the word, its fields and decoding, and the committed state (R290). -/
structure Explained where
  word    : Word
  fields  : Fields
  decoded : Decoded
  outcome : OutcomeCode
  current : Arch
  deriving DecidableEq, Repr

/-- `explain(addr, outcome)` (R290): it reads by `read32` and writes nothing, so it answers no state. Its text is outside
the hardware (log 7). -/
def State.hostExplain (s : State) (a : Word) (o : OutcomeCode) : Host.Outcome Explained Fault Refusal :=
  if s.map.pastEnd a.toNat then .refused (.hostAccessPastRegion a)
  else .next ⟨s.read32 a, decodeFields (s.read32 a), decodeWord (s.read32 a), o, s.cur⟩

/-- The loader's words from an address on, each by `write32` (R306). -/
def State.loadFrom (s : State) (a : Word) : List Word → State
  | [] => s
  | w :: ws => State.loadFrom (s.write32 a w) (a + 4) ws

/-- The loader's hand-off: word `k` of the image at `TEXT_BASE + 4k` (R306), modulo 2^32 (log 6,
log 10). A word past the end of TEXT follows the normal rule of `write32`. -/
def State.loadImage (s : State) (image : List Word) : State :=
  s.loadFrom (BitVec.ofNat 32 s.map.text.base) image

/-- The host's run loop (R307), at most `fuel` steps of it: it stops stepping when the run flag is false. -/
def runLoop : Nat → State → Result
  | 0, s => .next s
  | fuel + 1, s =>
    if s.run then
      match step s with
      | .next t => runLoop fuel t
      | .fault f => .fault f
      | .refused r => .refused r
    else .next s

end Sys2Proof.Machine
end

