-- ==== Sys2Proof/WellFormed.lean ====
section
/-! DEFINITION. Which instruction terms and which REGION_MAPs are well formed. -/

namespace Sys2Proof

/-- Every instruction term is well formed: each operand's type has exactly the width of its field in the word (R81,
R82), every register number names a register (R20), every shift amount is 0 to 31 (R83), and no rule calls a field
value of a decoded instruction illegal (R92, R94). So there is no check here that a term could fail. -/
def Instr.wellFormed : Instr → Bool :=
  fun _ => true

/-- Base and size of one region are multiples of 4, and it ends within the 2^32 bytes of the space (R60). DESIGN CHOICE
(log 10, safe): R60 does not say whether a size may be 0, and an empty region that meets its constraints is accepted. -/
def Region.wellFormed (r : Region) : Bool :=
  r.base % 4 == 0 && r.size % 4 == 0 && decide (r.base + r.size ≤ 2 ^ 32)

/-- The ranges of two regions have no address in common (R60). An empty range has none, so it is disjoint from every
other, wherever its base lies (log 10). -/
def Region.disjoint (r q : Region) : Bool :=
  r.size == 0 || q.size == 0 || decide (r.base + r.size ≤ q.base) || decide (q.base + q.size ≤ r.base)

/-- No two regions of the list share an address. -/
def Region.allDisjoint : List Region → Bool
  | [] => true
  | r :: rs => rs.all r.disjoint && Region.allDisjoint rs

/-- The constraints any REGION_MAP must meet (R60). -/
def RegionMap.wellFormed (m : RegionMap) : Bool :=
  m.regions.all Region.wellFormed && Region.allDisjoint m.regions

end Sys2Proof
end

