-- ==== Sys2Proof/Safety.lean ====
section
/-! DEFINITION. The terms the claims use: the invariant of a committed state, the opcode table as the spec writes it, and
what an instruction may change. Nothing here is part of the machine. -/

namespace Sys2Proof

/-! The opcode table. -/

/-- One row of spec/opcode_table.json: the mnemonic and its fixed fields `(hi, lo, value)`. -/
structure OpcodeRow where
  mnemonic : String
  fixed    : List (Nat × Nat × Nat)
  deriving DecidableEq, Repr

/-- The word has the row's value in every fixed field. -/
def OpcodeRow.matches (r : OpcodeRow) (w : Word) : Bool :=
  r.fixed.all fun (hi, lo, value) => (w.extractLsb' lo (hi - lo + 1)).toNat == value

/-- The rows with opcode 0, by `funct` (R88). -/
def opcodeRowsSpecial : List OpcodeRow :=
  [ ⟨"SLL", [(31, 26, 0x00), (5, 0, 0x00)]⟩,
    ⟨"SRL", [(31, 26, 0x00), (5, 0, 0x02)]⟩,
    ⟨"SRA", [(31, 26, 0x00), (5, 0, 0x03)]⟩,
    ⟨"SLLV", [(31, 26, 0x00), (5, 0, 0x04)]⟩,
    ⟨"SRLV", [(31, 26, 0x00), (5, 0, 0x06)]⟩,
    ⟨"SRAV", [(31, 26, 0x00), (5, 0, 0x07)]⟩,
    ⟨"JR", [(31, 26, 0x00), (5, 0, 0x08)]⟩,
    ⟨"JALR", [(31, 26, 0x00), (5, 0, 0x09)]⟩,
    ⟨"SYSCALL", [(31, 26, 0x00), (5, 0, 0x0C)]⟩,
    ⟨"MFHI", [(31, 26, 0x00), (5, 0, 0x10)]⟩,
    ⟨"MTHI", [(31, 26, 0x00), (5, 0, 0x11)]⟩,
    ⟨"MFLO", [(31, 26, 0x00), (5, 0, 0x12)]⟩,
    ⟨"MTLO", [(31, 26, 0x00), (5, 0, 0x13)]⟩,
    ⟨"MULT", [(31, 26, 0x00), (5, 0, 0x18)]⟩,
    ⟨"MULTU", [(31, 26, 0x00), (5, 0, 0x19)]⟩,
    ⟨"DIV", [(31, 26, 0x00), (5, 0, 0x1A)]⟩,
    ⟨"DIVU", [(31, 26, 0x00), (5, 0, 0x1B)]⟩,
    ⟨"ADD", [(31, 26, 0x00), (5, 0, 0x20)]⟩,
    ⟨"ADDU", [(31, 26, 0x00), (5, 0, 0x21)]⟩,
    ⟨"SUB", [(31, 26, 0x00), (5, 0, 0x22)]⟩,
    ⟨"SUBU", [(31, 26, 0x00), (5, 0, 0x23)]⟩,
    ⟨"AND", [(31, 26, 0x00), (5, 0, 0x24)]⟩,
    ⟨"OR", [(31, 26, 0x00), (5, 0, 0x25)]⟩,
    ⟨"XOR", [(31, 26, 0x00), (5, 0, 0x26)]⟩,
    ⟨"NOR", [(31, 26, 0x00), (5, 0, 0x27)]⟩,
    ⟨"SLT", [(31, 26, 0x00), (5, 0, 0x2A)]⟩,
    ⟨"SLTU", [(31, 26, 0x00), (5, 0, 0x2B)]⟩ ]

/-- The rows with opcode 1, by `rt` (R90). -/
def opcodeRowsRegimm : List OpcodeRow :=
  [ ⟨"BLTZ", [(31, 26, 0x01), (20, 16, 0x00)]⟩,
    ⟨"BGEZ", [(31, 26, 0x01), (20, 16, 0x01)]⟩,
    ⟨"BLTZAL", [(31, 26, 0x01), (20, 16, 0x10)]⟩,
    ⟨"BGEZAL", [(31, 26, 0x01), (20, 16, 0x11)]⟩ ]

/-- The other rows, by opcode (R89). -/
def opcodeRowsOther : List OpcodeRow :=
  [ ⟨"J", [(31, 26, 0x02)]⟩,
    ⟨"JAL", [(31, 26, 0x03)]⟩,
    ⟨"BEQ", [(31, 26, 0x04)]⟩,
    ⟨"BNE", [(31, 26, 0x05)]⟩,
    ⟨"BLEZ", [(31, 26, 0x06)]⟩,
    ⟨"BGTZ", [(31, 26, 0x07)]⟩,
    ⟨"ADDI", [(31, 26, 0x08)]⟩,
    ⟨"ADDIU", [(31, 26, 0x09)]⟩,
    ⟨"SLTI", [(31, 26, 0x0A)]⟩,
    ⟨"SLTIU", [(31, 26, 0x0B)]⟩,
    ⟨"ANDI", [(31, 26, 0x0C)]⟩,
    ⟨"ORI", [(31, 26, 0x0D)]⟩,
    ⟨"XORI", [(31, 26, 0x0E)]⟩,
    ⟨"LUI", [(31, 26, 0x0F)]⟩,
    ⟨"LB", [(31, 26, 0x20)]⟩,
    ⟨"LH", [(31, 26, 0x21)]⟩,
    ⟨"LW", [(31, 26, 0x23)]⟩,
    ⟨"LBU", [(31, 26, 0x24)]⟩,
    ⟨"LHU", [(31, 26, 0x25)]⟩,
    ⟨"SB", [(31, 26, 0x28)]⟩,
    ⟨"SH", [(31, 26, 0x29)]⟩,
    ⟨"SW", [(31, 26, 0x2B)]⟩ ]

/-- The whole table (R88 to R90). -/
def opcodeTable : List OpcodeRow :=
  opcodeRowsSpecial ++ opcodeRowsRegimm ++ opcodeRowsOther

/-- The mnemonics of the rows a word matches. -/
def matchingRows (w : Word) : List String :=
  (opcodeTable.filter fun r => r.matches w).map OpcodeRow.mnemonic

/-- The mnemonic of what the decoder reads, if it reads anything. -/
def Decoded.mnemonics : Decoded → List String
  | .instr i => [i.mnemonic]
  | .reject _ => []

/-- The bits of the `rs`, `rt`, `rd` and `shamt` fields (R81). -/
def maskRs : Word := 0x03E00000
def maskRt : Word := 0x001F0000
def maskRd : Word := 0x0000F800
def maskShamt : Word := 0x000007C0

/-- The bits of the fields each instruction ignores: the table of R92. -/
def Instr.ignoredBits : Instr → Word
  | .sll .. | .srl .. | .sra .. => maskRs
  | .sllv .. | .srlv .. | .srav .. => maskShamt
  | .add .. | .addu .. | .sub .. | .subu .. | .and .. | .or .. | .xor .. | .nor .. => maskShamt
  | .slt .. | .sltu .. => maskShamt
  | .jr .. => maskRt ||| maskRd ||| maskShamt
  | .jalr .. => maskRt ||| maskShamt
  | .syscall => maskRs ||| maskRt ||| maskRd ||| maskShamt
  | .mfhi .. | .mflo .. => maskRs ||| maskRt ||| maskShamt
  | .mthi .. | .mtlo .. => maskRt ||| maskRd ||| maskShamt
  | .mult .. | .multu .. | .div .. | .divu .. => maskRd ||| maskShamt
  | .blez .. | .bgtz .. => maskRt
  | .lui .. => maskRs
  | .j .. | .jal .. | .bltz .. | .bgez .. | .bltzal .. | .bgezal .. | .beq .. | .bne .. => 0
  | .addi .. | .addiu .. | .slti .. | .sltiu .. | .andi .. | .ori .. | .xori .. => 0
  | .lb .. | .lh .. | .lw .. | .lbu .. | .lhu .. | .sb .. | .sh .. | .sw .. => 0

/-- Every word with this opcode 0 `funct` decodes to the instruction built from its fields. -/
def DecodesSpecial (funct : BitVec 6) (mk : Word → Instr) : Prop :=
  ∀ w : Word, w.extractLsb' 26 6 = 0x00#6 → w.extractLsb' 0 6 = funct → decodeWord w = .instr (mk w)

/-- Every word with opcode 1 and this `rt` decodes to the instruction built from its fields. -/
def DecodesRegimm (rt : BitVec 5) (mk : Word → Instr) : Prop :=
  ∀ w : Word, w.extractLsb' 26 6 = 0x01#6 → w.extractLsb' 16 5 = rt → decodeWord w = .instr (mk w)

/-- Every word with this opcode decodes to the instruction built from its fields. -/
def DecodesOpcode (opcode : BitVec 6) (mk : Word → Instr) : Prop :=
  ∀ w : Word, w.extractLsb' 26 6 = opcode → decodeWord w = .instr (mk w)

/-- The field positions of R81, for the claims. -/
def rsOf (w : Word) : Reg := w.extractLsb' 21 5
def rtOf (w : Word) : Reg := w.extractLsb' 16 5
def rdOf (w : Word) : Reg := w.extractLsb' 11 5
def shamtOf (w : Word) : BitVec 5 := w.extractLsb' 6 5
def immOf (w : Word) : BitVec 16 := w.extractLsb' 0 16
def targetOf (w : Word) : BitVec 26 := w.extractLsb' 0 26

end Sys2Proof

namespace Sys2Proof.Machine

/-! The invariant. -/

/-- Every listed byte lies in a mapped region (R60, R63). -/
def Memory.inside (m : Memory) (map : RegionMap) : Bool :=
  m.all fun c => map.mapped c.1

/-- What holds of every committed state between steps: a well-formed REGION_MAP (R60), canonical memory inside the
regions, a committed PC that is a multiple of 4 (R25), and `nxt` equal to `cur` (R30). -/
def State.Inv (s : State) : Prop :=
  s.map.wellFormed = true ∧ s.mem.wf = true ∧ s.mem.inside s.map = true ∧ aligned4 s.cur.pc = true ∧ s.nxt = s.cur

/-! What an instruction leaves alone. `s` is the state it runs in, `t` the state it leaves. -/

/-- Committed state, counter, map, and every register of `nxt` outside `dest` are unchanged. -/
def KeepsAllBut (dest : List Reg) (s t : State) : Prop :=
  t.cur = s.cur ∧ t.count = s.count ∧ t.map = s.map ∧ ∀ r, r ∉ dest → t.nxt.reg r = s.nxt.reg r

/-- HI and LO of `nxt` are unchanged. -/
def KeepsHiLo (s t : State) : Prop :=
  t.nxt.hi = s.nxt.hi ∧ t.nxt.lo = s.nxt.lo

/-- Every byte of memory reads as before. -/
def KeepsMemory (s t : State) : Prop :=
  ∀ a, t.mem.byteAt a = s.mem.byteAt a

/-- The step goes on: run flag and outcome are unchanged. -/
def KeepsRunning (s t : State) : Prop :=
  t.run = s.run ∧ t.outcome = s.outcome

/-- The next PC stays as fetch left it. -/
def KeepsPc (s t : State) : Prop :=
  t.nxt.pc = s.nxt.pc

/-- `x[r] <- v` and nothing else. -/
def OnlyWritesReg (r : Reg) (v : Word) (s t : State) : Prop :=
  t.nxt.reg r = v ∧ KeepsAllBut [r] s t ∧ KeepsHiLo s t ∧ KeepsMemory s t ∧ KeepsRunning s t ∧ KeepsPc s t

/-- `HI <- hi; LO <- lo` and nothing else. -/
def OnlyWritesHiLo (hi lo : Word) (s t : State) : Prop :=
  t.nxt.hi = hi ∧ t.nxt.lo = lo ∧ KeepsAllBut [] s t ∧ KeepsMemory s t ∧ KeepsRunning s t ∧ KeepsPc s t

/-- `pc <- target` and nothing else. -/
def OnlyJumps (target : Word) (s t : State) : Prop :=
  t.nxt.pc = target ∧ KeepsAllBut [] s t ∧ KeepsHiLo s t ∧ KeepsMemory s t ∧ KeepsRunning s t

/-- `x[r] <- v; pc <- target` and nothing else. -/
def OnlyLinksAndJumps (r : Reg) (v target : Word) (s t : State) : Prop :=
  t.nxt.pc = target ∧ t.nxt.reg r = v ∧ KeepsAllBut [r] s t ∧ KeepsHiLo s t ∧ KeepsMemory s t ∧ KeepsRunning s t

/-- The low `n` bytes of `v` go, little-endian, to the mapped bytes from `a` on; every other byte of memory and all else
is unchanged (R62, R63, R67). -/
def OnlyStores (a : Word) (n : Nat) (v : Word) (s t : State) : Prop :=
  (∀ b : Nat, t.mem.byteAt b =
    if a.toNat ≤ b ∧ b < a.toNat + n ∧ s.map.mapped b = true then v.extractLsb' (8 * (b - a.toNat)) 8
    else s.mem.byteAt b) ∧
  KeepsAllBut [] s t ∧ KeepsHiLo s t ∧ KeepsRunning s t ∧ KeepsPc s t

/-- The error path with UnalignedAddress: the PC is frozen at the instruction, the run flag cleared, nothing else
changed (R272, R278). -/
def OnlyHaltsUnaligned (s t : State) : Prop :=
  t.outcome = .unalignedAddress ∧ t.run = false ∧ t.nxt.pc = s.cur.pc ∧ KeepsAllBut [] s t ∧ KeepsHiLo s t ∧
    KeepsMemory s t

/-- The byte a load sees at an address: 0 where it is unmapped (R61, R63). -/
def State.byteSeen (s : State) (a : Nat) : Byte :=
  if s.map.mapped a then s.mem.byteAt a else 0

/-- The effective address of a load or store (R235), in the terms of the spec. -/
def eaOf (s : State) (rs : Reg) (imm : BitVec 16) : Word :=
  s.cur.reg rs + imm.signExtend 32

/-- The branch target (R191). -/
def btOf (s : State) (imm : BitVec 16) : Word :=
  s.cur.pc + 4#32 + (imm.signExtend 32 <<< 2)

/-- The jump target (R180): the PC's top four bits, the field, two zero bits. -/
def jtOf (s : State) (target : BitVec 26) : Word :=
  s.cur.pc.extractLsb' 28 4 ++ target ++ 0#2

/-- The next PC a branch leaves: its target if the condition holds, else what fetch left (R190). -/
def branchPc (s : State) (c : Prop) [Decidable c] (imm : BitVec 16) : Word :=
  if c then btOf s imm else s.nxt.pc

/-! Whole steps. -/

/-- The committed state after a step that changes nothing: register 0 is zeroed (R21, R41). -/
def State.curZeroed (s : State) : Arch :=
  s.cur.setReg 0 0

/-- What a step that ends in the error outcome `o` leaves (R41, R271, R272, R278). -/
def State.erred (s : State) (o : OutcomeCode) : State :=
  { s with cur := s.curZeroed, nxt := s.curZeroed, run := false, count := s.count + 1, outcome := o }

/-- The instruction the next step executes, if the fetched word is one (R40 steps (4) and (5)). -/
def State.fetched (s : State) : Decoded :=
  decodeWord (s.read32 s.cur.pc)

/-- What becomes of an instruction's result at the end of its step: a next state is committed and counted, a fault or a
refusal is the step's answer as it is (R40 steps (7) and (8), R276). -/
def committed : Result → Result
  | .next t => .next { t with cur := t.nxt, count := t.count + 1 }
  | .fault f => .fault f
  | .refused r => .refused r

/-- The general registers each instruction may write: the table of R22. -/
def dest : Instr → List Reg
  | .sll rd _ _ | .srl rd _ _ | .sra rd _ _ | .sllv rd _ _ | .srlv rd _ _ | .srav rd _ _ | .jalr rd _ => [rd]
  | .mfhi rd | .mflo rd => [rd]
  | .add rd _ _ | .addu rd _ _ | .sub rd _ _ | .subu rd _ _ | .and rd _ _ | .or rd _ _ | .xor rd _ _ => [rd]
  | .nor rd _ _ | .slt rd _ _ | .sltu rd _ _ => [rd]
  | .addi rt _ _ | .addiu rt _ _ | .slti rt _ _ | .sltiu rt _ _ | .andi rt _ _ | .ori rt _ _ | .xori rt _ _ => [rt]
  | .lui rt _ | .lb rt _ _ | .lh rt _ _ | .lw rt _ _ | .lbu rt _ _ | .lhu rt _ _ => [rt]
  | .jal _ | .bltzal _ _ | .bgezal _ _ => [31]
  | .syscall => [2]
  | .jr _ | .mthi _ | .mtlo _ | .mult _ _ | .multu _ _ | .div _ _ | .divu _ _ | .bltz _ _ | .bgez _ _ => []
  | .j _ | .beq _ _ _ | .bne _ _ _ | .blez _ _ | .bgtz _ _ | .sb _ _ _ | .sh _ _ _ | .sw _ _ _ => []

/-- The instructions that write HI (R23). -/
def writesHi : Instr → Bool
  | .mult .. | .multu .. | .div .. | .divu .. | .mthi .. => true
  | _ => false

/-- The instructions that write LO (R23). -/
def writesLo : Instr → Bool
  | .mult .. | .multu .. | .div .. | .divu .. | .mtlo .. => true
  | _ => false

/-- The stores (R253). -/
def isStore : Instr → Bool
  | .sb .. | .sh .. | .sw .. => true
  | _ => false

/-- The instruction computes an address or a jump target that violates its alignment: the list of R272, with `x` the
register values it reads. -/
def misaligned (x : Reg → Word) : Instr → Prop
  | .lw _ rs imm | .sw _ rs imm => (x rs + imm.signExtend 32).extractLsb' 0 2 ≠ 0#2
  | .lh _ rs imm | .lhu _ rs imm | .sh _ rs imm => (x rs + imm.signExtend 32).extractLsb' 0 1 ≠ 0#1
  | .jr rs | .jalr _ rs => (x rs).extractLsb' 0 2 ≠ 0#2
  | _ => False

/-- The instruction is one of the divides of R276, with `x` the register values it reads. -/
def undefinedDivide (x : Reg → Word) : Instr → Prop
  | .div rs rt => x rt = 0 ∨ (x rs = 0x80000000#32 ∧ x rt = 0xFFFFFFFF#32)
  | .divu _ rt => x rt = 0
  | _ => False

end Sys2Proof.Machine
end

