-- ==== Sys2Proof/Certificates/Slice0/Obligations.lean ====
section
/-! DEFINITION. The statements for the provers. `exec` is R40 step (5): it runs in a state a step has prepared, so a
statement about `exec` reads registers from `cur` and says what becomes of `nxt`; the statements about `step` say what is
committed. -/

open Sys2Proof Sys2Proof.Machine

/-- No bit of an operand is lost by the encoder or the decoder, for every instruction and every operand value (R80 to
R90). -/
def Obligations.EncodedInstructionDecodesBack : Prop :=
  ∀ (i : Instr) (rest : List Byte), i.wellFormed = true →
    decodeBytes (encodeBytes i ++ rest) = (.instr i, rest)

/-- The two-level dispatch of R84 to R87 reads exactly the rows of the tables of R88 to R90 (opcode_table.json). -/
def Obligations.DecodingFollowsTheOpcodeTable : Prop :=
  ∀ w : Word, matchingRows w = (decodeWord w).mnemonics

/-- The table of R92, which rests on the spec's decision D9. -/
def Obligations.IgnoredFieldsDoNotMatter : Prop :=
  ∀ (w flips : Word) (i : Instr), decodeWord w = .instr i →
    decodeWord (w ^^^ (flips &&& i.ignoredBits)) = .instr i

/-- Words of the spec's examples decode to the instructions they stand for. -/
def Obligations.KnownWordsDecode : Prop :=
  decodeWord 0x00031100 = .instr (.sll 2 3 4) ∧ decodeWord 0x0080F809 = .instr (.jalr 31 4) ∧
    decodeWord 0x00850018 = .instr (.mult 4 5) ∧ decodeWord 0x00221821 = .instr (.addu 3 1 2) ∧
    decodeWord 0x08100100 = .instr (.j 0x100100) ∧ decodeWord 0x10220004 = .instr (.beq 1 2 4) ∧
    decodeWord 0x24228000 = .instr (.addiu 2 1 0x8000) ∧ decodeWord 0x80220003 = .instr (.lb 2 1 3) ∧
    decodeWord 0xAC220000 = .instr (.sw 2 1 0) ∧ decodeWord 0x0000000D = .reject (.unassignedFunct 0x0D) ∧
    decodeWord 0x04220004 = .reject (.unassignedRegimm 2)

/-- A step zeroes register 0, copies cur to nxt and advances nxt.PC before it executes. -/
def Obligations.FetchPreparesBothBuffers : Prop :=
  ∀ s : State,
    (∀ r : Reg, s.beginStep.cur.reg r = if r = 0 then 0 else s.cur.reg r) ∧
    s.beginStep.cur.pc = s.cur.pc ∧ s.beginStep.cur.hi = s.cur.hi ∧ s.beginStep.cur.lo = s.cur.lo ∧
    s.beginStep.nxt = { s.beginStep.cur with pc := s.cur.pc + 4 } ∧
    s.beginStep.mem = s.mem ∧ s.beginStep.map = s.map ∧ s.beginStep.run = s.run ∧ s.beginStep.count = s.count ∧
    s.beginStep.outcome = .ok

/-- A step executes the instruction its fetched word decodes to and commits what it built. -/
def Obligations.StepRunsTheDecodedInstruction : Prop :=
  ∀ (s : State) (i : Instr), s.fetched = .instr i → i.wellFormed = true →
    step s = committed (exec i s.beginStep)

/-- R25 (the committed PC is always a multiple of 4), R30 (between steps nxt equals cur) and the form of memory and
map (R60) hold after every step. -/
def Obligations.EveryStepKeepsTheInvariant : Prop :=
  ∀ s t : State, s.Inv → step s = .next t → t.Inv

/-- R33 and R60. The default map is DESIGN CHOICE log 1. Maps with empty regions count as well formed by DESIGN CHOICE
log 10. -/
def Obligations.ResetMeetsTheInvariant : Prop :=
  (∀ m : RegionMap, m.wellFormed = true → (State.resetWith m).Inv) ∧ State.reset.map.wellFormed = true

/-- The table of R33, which rests on the spec's decisions D2 to D5. The map of State.reset is DESIGN CHOICE log 1; a
TEXT_BASE that is no 32-bit address is taken modulo 2^32, DESIGN CHOICE log 10. -/
def Obligations.ResetLeavesTheStatedValues : Prop :=
  (∀ m : RegionMap,
      (State.resetWith m).cur.pc = BitVec.ofNat 32 m.text.base ∧
      (∀ r : Reg, (State.resetWith m).cur.reg r = 0) ∧
      (State.resetWith m).cur.hi = 0 ∧ (State.resetWith m).cur.lo = 0 ∧
      (State.resetWith m).nxt = (State.resetWith m).cur ∧ (State.resetWith m).run = true ∧
      (State.resetWith m).count = 0 ∧ (State.resetWith m).map = m ∧
      ∀ a : Nat, (State.resetWith m).mem.byteAt a = 0) ∧
    State.reset = State.resetWith Config.defaultMap ∧ State.reset.cur.pc = 0x00400000

/-- R41, R42: Every step commits and is counted; an error step changes nothing else. -/
def Obligations.EveryStepCommitsAndCounts : Prop :=
  ∀ s t : State, step s = .next t →
    t.nxt = t.cur ∧ t.count = s.count + 1 ∧ (t.outcome ≠ .ok → t = s.erred t.outcome)

/-- R99, R271: A step ends in UnknownInstruction exactly when the fetched word matches no row of the opcode map. -/
def Obligations.UnknownWordHaltsAtItsAddress : Prop :=
  (∀ s : State, matchingRows (s.read32 s.cur.pc) = [] → step s = .next (s.erred .unknownInstruction)) ∧
    (∀ s t : State, step s = .next t → t.outcome = .unknownInstruction → matchingRows (s.read32 s.cur.pc) = [])

/-- R272: A step ends in UnalignedAddress exactly in the cases R272 lists. -/
def Obligations.UnalignedAddressIsRaisedExactly : Prop :=
  (∀ (s : State) (i : Instr), s.fetched = .instr i → misaligned s.curZeroed.reg i →
      step s = .next (s.erred .unalignedAddress)) ∧
    (∀ s t : State, step s = .next t → t.outcome = .unalignedAddress →
      ∃ i, s.fetched = .instr i ∧ misaligned s.curZeroed.reg i)

/-- R273, which rests on the spec's decision D21. -/
def Obligations.ArithmeticOverflowIsNeverProduced : Prop :=
  ∀ s t : State, step s = .next t → t.outcome ≠ .arithmeticOverflow

/-- R276, which rests on the spec's decisions D6 and D7. What the fault records is log 4. -/
def Obligations.UndefinedDivideIsTheOnlyStop : Prop :=
  ∀ s : State,
    (∀ i, s.fetched = .instr i → undefinedDivide s.curZeroed.reg i →
      step s = .fault (.undefinedDivide s.cur.pc (s.read32 s.cur.pc))) ∧
    ((∀ i, s.fetched = .instr i → ¬ undefinedDivide s.curZeroed.reg i) → ∃ t, step s = .next t)

/-- The run flag falls only by an error outcome or SYSCALL, and no step raises it. -/
def Obligations.RunFlagFallsOnlyByErrorOrSyscall : Prop :=
  ∀ s t : State, step s = .next t →
    (t.run = true ↔ s.run = true ∧ t.outcome = .ok ∧ s.fetched ≠ .instr .syscall)

/-- A step depends on the committed state, the map and memory alone. -/
def Obligations.StepReadsOnlyCommittedStateAndMemory : Prop :=
  ∀ s₁ s₂ : State, s₁.curZeroed = s₂.curZeroed → s₁.map = s₂.map → s₁.mem = s₂.mem →
    (∀ t₁, step s₁ = .next t₁ → ∃ t₂, step s₂ = .next t₂ ∧ t₂.cur = t₁.cur ∧ t₂.nxt = t₁.nxt ∧
      t₂.mem = t₁.mem ∧ t₂.map = t₁.map ∧ t₂.outcome = t₁.outcome ∧
      t₁.count = s₁.count + 1 ∧ t₂.count = s₂.count + 1 ∧ (s₁.run = s₂.run → t₂.run = t₁.run)) ∧
    (∀ f, step s₁ = .fault f → step s₂ = .fault f)

/-- Stepping again after an error step ends in the same outcome and changes only the counter. -/
def Obligations.ErrorStepRepeatsItself : Prop :=
  ∀ s t : State, step s = .next t → t.outcome ≠ .ok → step t = .next { t with count := t.count + 1 }

/-- A step at an unmapped PC executes the no-op. -/
def Obligations.UnmappedFetchIsANoOp : Prop :=
  ∀ s : State, s.map.mapped s.cur.pc.toNat = false →
    ∃ t, step s = .next t ∧ t.cur = { s.curZeroed with pc := s.cur.pc + 4 } ∧ t.mem = s.mem ∧ t.map = s.map ∧
      t.run = s.run ∧ t.outcome = .ok

/-- A word stored at PC + 4 is the one the next step fetches. Where the word runs past the end of its region, which
needs a map that is not well formed, this is DESIGN CHOICE log 5. -/
def Obligations.StoredWordIsFetchedNext : Prop :=
  ∀ (s : State) (rt rs : Reg) (imm : BitVec 16), s.mem.wf = true → s.fetched = .instr (.sw rt rs imm) →
    s.curZeroed.reg rs + imm.signExtend 32 = s.cur.pc + 4 → (s.cur.pc + 4).extractLsb' 0 2 = 0#2 →
    s.map.mapped (s.cur.pc + 4).toNat = true →
    ∃ t, step s = .next t ∧ t.fetched = decodeWord (s.curZeroed.reg rt)

/-- The negative half of the tables of R22 and R23, and R44: what no instruction outside them changes. -/
def Obligations.OnlyNamedStateChanges : Prop :=
  ∀ (i : Instr) (s t : State), exec i s = .next t →
    KeepsAllBut (dest i) s t ∧ (writesHi i = false → t.nxt.hi = s.nxt.hi) ∧
    (writesLo i = false → t.nxt.lo = s.nxt.lo) ∧ (isStore i = false → t.mem = s.mem)

/-- R61 and R62 for an access inside its region. Where the four bytes run past the end of the region, which R65 leaves
undefined, what is read and written is the DESIGN CHOICE of log 5. -/
def Obligations.WordAccessFollowsTheRegions : Prop :=
  (∀ (s : State) (a : Word),
      s.read32 a = if ∃ r ∈ s.map.regions, r.base ≤ a.toNat ∧ a.toNat < r.base + r.size then
        s.mem.byteAt (a.toNat + 3) ++ s.mem.byteAt (a.toNat + 2) ++ s.mem.byteAt (a.toNat + 1) ++ s.mem.byteAt a.toNat
      else 0#32) ∧
    (∀ (s : State) (a v : Word), s.mem.wf = true →
      (∀ b : Nat, (s.write32 a v).mem.byteAt b =
        if (∃ r ∈ s.map.regions, r.base ≤ a.toNat ∧ a.toNat < r.base + r.size) ∧ a.toNat ≤ b ∧ b < a.toNat + 4 then
          v.extractLsb' (8 * (b - a.toNat)) 8
        else s.mem.byteAt b) ∧
      ∃ m : Memory, s.write32 a v = { s with mem := m } ∧ m.wf = true)

/-- A word read gives the word last written there and is untouched by writes elsewhere. At an address that is a
multiple of 4 the word runs past the end of its region only under a map that is not well formed; there this is DESIGN
CHOICE log 5. -/
def Obligations.WordWriteThenRead : Prop :=
  ∀ (s : State) (a b v : Word), s.mem.wf = true → a.extractLsb' 0 2 = 0#2 → b.extractLsb' 0 2 = 0#2 →
    (s.write32 a v).read32 a = (if s.map.mapped a.toNat then v else 0) ∧
    (b ≠ a → (s.write32 a v).read32 b = s.read32 b)

/-- The bytes and halfwords of a written word are its little-endian lanes. Where the word runs past the end of its
region, which needs a map that is not well formed, this is DESIGN CHOICE log 5. -/
def Obligations.LanesAreLittleEndian : Prop :=
  ∀ (s : State) (a v : Word), s.mem.wf = true → a.extractLsb' 0 2 = 0#2 → s.map.mapped a.toNat = true →
    (s.write32 a v).memRead8 a = v.extractLsb' 0 8 ∧ (s.write32 a v).memRead8 (a + 1) = v.extractLsb' 8 8 ∧
    (s.write32 a v).memRead8 (a + 2) = v.extractLsb' 16 8 ∧ (s.write32 a v).memRead8 (a + 3) = v.extractLsb' 24 8 ∧
    (s.write32 a v).memRead16 a = v.extractLsb' 0 16 ∧ (s.write32 a v).memRead16 (a + 2) = v.extractLsb' 16 16

/-- R65, whose refusal rests on the spec's decision D14. -/
def Obligations.HostAccessPastRegionIsRefused : Prop :=
  ∀ (s : State) (a v : Word), s.map.wellFormed = true →
    ((∃ r ∈ s.map.regions, r.base ≤ a.toNat ∧ a.toNat < r.base + r.size ∧ r.base + r.size < a.toNat + 4) →
      s.hostRead32 a = .refused (.hostAccessPastRegion a) ∧
      s.hostWrite32 a v = .refused (.hostAccessPastRegion a)) ∧
    (¬ (∃ r ∈ s.map.regions, r.base ≤ a.toNat ∧ a.toNat < r.base + r.size ∧ r.base + r.size < a.toNat + 4) →
      s.hostRead32 a = .next (s.read32 a) ∧ s.hostWrite32 a v = .next (s.write32 a v)) ∧
    (a.extractLsb' 0 2 = 0#2 → s.hostRead32 a = .next (s.read32 a))

/-- What the host does between steps keeps the invariant. -/
def Obligations.HostOperationsKeepTheInvariant : Prop :=
  ∀ s : State, s.Inv →
    (∀ b, (s.hostSetRun b).Inv) ∧
    (∀ (a v : Word) (t : State), s.hostWrite32 a v = .next t → t.Inv) ∧
    (∀ image : List Word, (s.loadImage image).Inv)

/-- R306, which rests on the spec's decision D16. -/
def Obligations.LoadedImageIsInPlace : Prop :=
  ∀ (s : State) (image : List Word), s.map.wellFormed = true → s.mem.wf = true →
    4 * image.length ≤ s.map.text.size →
    (∀ (k : Nat) (hk : k < image.length),
      (s.loadImage image).read32 (BitVec.ofNat 32 (s.map.text.base + 4 * k)) = image[k]) ∧
    (∀ b : Nat, (b < s.map.text.base ∨ s.map.text.base + 4 * image.length ≤ b) →
      (s.loadImage image).mem.byteAt b = s.mem.byteAt b)

/-- R120, R121, R122: SLL, SRL and SRA shift x[rt] by shamt into rd and change nothing else. -/
def Obligations.ImmediateShifts : Prop :=
  DecodesSpecial 0x00#6 (fun w => .sll (rdOf w) (rtOf w) (shamtOf w)) ∧
    DecodesSpecial 0x02#6 (fun w => .srl (rdOf w) (rtOf w) (shamtOf w)) ∧
    DecodesSpecial 0x03#6 (fun w => .sra (rdOf w) (rtOf w) (shamtOf w)) ∧
    (∀ (rd rt : Reg) (shamt : BitVec 5) (s : State), ∃ t, exec (.sll rd rt shamt) s = .next t ∧
      OnlyWritesReg rd (s.cur.reg rt <<< shamt.toNat) s t) ∧
    (∀ (rd rt : Reg) (shamt : BitVec 5) (s : State), ∃ t, exec (.srl rd rt shamt) s = .next t ∧
      OnlyWritesReg rd (s.cur.reg rt >>> shamt.toNat) s t) ∧
    (∀ (rd rt : Reg) (shamt : BitVec 5) (s : State), ∃ t, exec (.sra rd rt shamt) s = .next t ∧
      OnlyWritesReg rd ((s.cur.reg rt).sshiftRight shamt.toNat) s t)

/-- R123, R124, R125: SLLV, SRLV and SRAV shift x[rt] by the low five bits of x[rs] into rd and change nothing else.
-/
def Obligations.VariableShifts : Prop :=
  DecodesSpecial 0x04#6 (fun w => .sllv (rdOf w) (rtOf w) (rsOf w)) ∧
    DecodesSpecial 0x06#6 (fun w => .srlv (rdOf w) (rtOf w) (rsOf w)) ∧
    DecodesSpecial 0x07#6 (fun w => .srav (rdOf w) (rtOf w) (rsOf w)) ∧
    (∀ (rd rt rs : Reg) (s : State), ∃ t, exec (.sllv rd rt rs) s = .next t ∧
      OnlyWritesReg rd (s.cur.reg rt <<< ((s.cur.reg rs).toNat % 32)) s t) ∧
    (∀ (rd rt rs : Reg) (s : State), ∃ t, exec (.srlv rd rt rs) s = .next t ∧
      OnlyWritesReg rd (s.cur.reg rt >>> ((s.cur.reg rs).toNat % 32)) s t) ∧
    (∀ (rd rt rs : Reg) (s : State), ∃ t, exec (.srav rd rt rs) s = .next t ∧
      OnlyWritesReg rd ((s.cur.reg rt).sshiftRight ((s.cur.reg rs).toNat % 32)) s t)

/-- R130: JR jumps to x[rs], or raises UnalignedAddress and changes nothing. -/
def Obligations.JumpRegister : Prop :=
  DecodesSpecial 0x08#6 (fun w => .jr (rsOf w)) ∧
    (∀ (rs : Reg) (s : State), (s.cur.reg rs).extractLsb' 0 2 = 0#2 →
      ∃ t, exec (.jr rs) s = .next t ∧ OnlyJumps (s.cur.reg rs) s t) ∧
    (∀ (rs : Reg) (s : State), (s.cur.reg rs).extractLsb' 0 2 ≠ 0#2 →
      ∃ t, exec (.jr rs) s = .next t ∧ OnlyHaltsUnaligned s t)

/-- R131: JALR links PC + 4 into rd and jumps to the old x[rs], or raises UnalignedAddress before any write. -/
def Obligations.JumpAndLinkRegister : Prop :=
  DecodesSpecial 0x09#6 (fun w => .jalr (rdOf w) (rsOf w)) ∧
    (∀ (rd rs : Reg) (s : State), (s.cur.reg rs).extractLsb' 0 2 = 0#2 →
      ∃ t, exec (.jalr rd rs) s = .next t ∧ OnlyLinksAndJumps rd (s.cur.pc + 4) (s.cur.reg rs) s t) ∧
    (∀ (rd rs : Reg) (s : State), (s.cur.reg rs).extractLsb' 0 2 ≠ 0#2 →
      ∃ t, exec (.jalr rd rs) s = .next t ∧ OnlyHaltsUnaligned s t)

/-- R132, whose unconditional write rests on the spec's decision D22. -/
def Obligations.SystemCallHalts : Prop :=
  DecodesSpecial 0x0C#6 (fun _ => .syscall) ∧
    (∀ s : State, ∃ t, exec .syscall s = .next t ∧ t.nxt.reg 2 = 0x0000000A ∧ t.run = false ∧
      t.outcome = s.outcome ∧ KeepsAllBut [2] s t ∧ KeepsHiLo s t ∧ KeepsMemory s t ∧ KeepsPc s t)

/-- R140, R142: MFHI and MFLO copy HI and LO into rd and change nothing else. -/
def Obligations.MoveFromHiAndLo : Prop :=
  DecodesSpecial 0x10#6 (fun w => .mfhi (rdOf w)) ∧
    DecodesSpecial 0x12#6 (fun w => .mflo (rdOf w)) ∧
    (∀ (rd : Reg) (s : State), ∃ t, exec (.mfhi rd) s = .next t ∧
      OnlyWritesReg rd (s.cur.hi) s t) ∧
    (∀ (rd : Reg) (s : State), ∃ t, exec (.mflo rd) s = .next t ∧
      OnlyWritesReg rd (s.cur.lo) s t)

/-- R141, R143: MTHI and MTLO copy x[rs] into HI or LO and change nothing else. -/
def Obligations.MoveToHiAndLo : Prop :=
  DecodesSpecial 0x11#6 (fun w => .mthi (rsOf w)) ∧
    DecodesSpecial 0x13#6 (fun w => .mtlo (rsOf w)) ∧
    (∀ (rs : Reg) (s : State), ∃ t, exec (.mthi rs) s = .next t ∧ OnlyWritesHiLo (s.cur.reg rs) s.nxt.lo s t) ∧
    (∀ (rs : Reg) (s : State), ∃ t, exec (.mtlo rs) s = .next t ∧ OnlyWritesHiLo s.nxt.hi (s.cur.reg rs) s t)

/-- R144, R145: MULT and MULTU leave the exact 64-bit product in HI and LO and change nothing else. -/
def Obligations.MultiplyGivesTheExactProduct : Prop :=
  DecodesSpecial 0x18#6 (fun w => .mult (rsOf w) (rtOf w)) ∧
    DecodesSpecial 0x19#6 (fun w => .multu (rsOf w) (rtOf w)) ∧
    (∀ (rs rt : Reg) (s : State), ∃ t hi lo, exec (.mult rs rt) s = .next t ∧ OnlyWritesHiLo hi lo s t ∧
      (hi ++ lo).toInt = (s.cur.reg rs).toInt * (s.cur.reg rt).toInt) ∧
    (∀ (rs rt : Reg) (s : State), ∃ t hi lo, exec (.multu rs rt) s = .next t ∧ OnlyWritesHiLo hi lo s t ∧
      (hi ++ lo).toNat = (s.cur.reg rs).toNat * (s.cur.reg rt).toNat)

/-- R146, which rests on the spec's decisions D6, D7 and D19. What the fault records is log 4. -/
def Obligations.SignedDivideTruncates : Prop :=
  DecodesSpecial 0x1A#6 (fun w => .div (rsOf w) (rtOf w)) ∧
    (∀ (rs rt : Reg) (s : State), s.cur.reg rt ≠ 0 →
      ¬ (s.cur.reg rs = 0x80000000#32 ∧ s.cur.reg rt = 0xFFFFFFFF#32) →
      ∃ t hi lo, exec (.div rs rt) s = .next t ∧ OnlyWritesHiLo hi lo s t ∧
        (s.cur.reg rs).toInt = lo.toInt * (s.cur.reg rt).toInt + hi.toInt ∧
        hi.toInt.natAbs < (s.cur.reg rt).toInt.natAbs ∧ 0 ≤ hi.toInt * (s.cur.reg rs).toInt) ∧
    (∀ (rs rt : Reg) (s : State),
      (s.cur.reg rt = 0 ∨ (s.cur.reg rs = 0x80000000#32 ∧ s.cur.reg rt = 0xFFFFFFFF#32)) →
      exec (.div rs rt) s = .fault (.undefinedDivide s.cur.pc (s.read32 s.cur.pc)))

/-- R147, whose fault rests on the spec's decision D6. What the fault records is log 4. -/
def Obligations.UnsignedDivide : Prop :=
  DecodesSpecial 0x1B#6 (fun w => .divu (rsOf w) (rtOf w)) ∧
    (∀ (rs rt : Reg) (s : State), s.cur.reg rt ≠ 0 →
      ∃ t hi lo, exec (.divu rs rt) s = .next t ∧ OnlyWritesHiLo hi lo s t ∧
        (s.cur.reg rs).toNat = lo.toNat * (s.cur.reg rt).toNat + hi.toNat ∧ hi.toNat < (s.cur.reg rt).toNat) ∧
    (∀ (rs rt : Reg) (s : State), s.cur.reg rt = 0 →
      exec (.divu rs rt) s = .fault (.undefinedDivide s.cur.pc (s.read32 s.cur.pc)))

/-- R161, R163: ADDU and SUBU write the sum and the difference modulo 2^32 and change nothing else. -/
def Obligations.UnsignedAddAndSubtractWrap : Prop :=
  DecodesSpecial 0x21#6 (fun w => .addu (rdOf w) (rsOf w) (rtOf w)) ∧
    DecodesSpecial 0x23#6 (fun w => .subu (rdOf w) (rsOf w) (rtOf w)) ∧
    (∀ (rd rs rt : Reg) (s : State), ∃ t, exec (.addu rd rs rt) s = .next t ∧
      OnlyWritesReg rd (s.cur.reg rs + s.cur.reg rt) s t) ∧
    (∀ (rd rs rt : Reg) (s : State), ∃ t, exec (.subu rd rs rt) s = .next t ∧
      OnlyWritesReg rd (s.cur.reg rs - s.cur.reg rt) s t)

/-- R160, R162 and R210, whose wrap without trap is the spec's decision D21. -/
def Obligations.AddAndSubtractDoNotTrap : Prop :=
  DecodesSpecial 0x20#6 (fun w => .add (rdOf w) (rsOf w) (rtOf w)) ∧
    DecodesSpecial 0x22#6 (fun w => .sub (rdOf w) (rsOf w) (rtOf w)) ∧
    DecodesOpcode 0x08#6 (fun w => .addi (rtOf w) (rsOf w) (immOf w)) ∧
    (∀ (rd rs rt : Reg) (s : State), ∃ t, exec (.add rd rs rt) s = .next t ∧
      OnlyWritesReg rd (s.cur.reg rs + s.cur.reg rt) s t) ∧
    (∀ (rd rs rt : Reg) (s : State), ∃ t, exec (.sub rd rs rt) s = .next t ∧
      OnlyWritesReg rd (s.cur.reg rs - s.cur.reg rt) s t) ∧
    (∀ (rt rs : Reg) (imm : BitVec 16) (s : State), ∃ t, exec (.addi rt rs imm) s = .next t ∧
      OnlyWritesReg rt (s.cur.reg rs + imm.signExtend 32) s t)

/-- R164, R165, R166, R167: AND, OR, XOR and NOR write the bitwise result and change nothing else. -/
def Obligations.RegisterLogical : Prop :=
  DecodesSpecial 0x24#6 (fun w => .and (rdOf w) (rsOf w) (rtOf w)) ∧
    DecodesSpecial 0x25#6 (fun w => .or (rdOf w) (rsOf w) (rtOf w)) ∧
    DecodesSpecial 0x26#6 (fun w => .xor (rdOf w) (rsOf w) (rtOf w)) ∧
    DecodesSpecial 0x27#6 (fun w => .nor (rdOf w) (rsOf w) (rtOf w)) ∧
    (∀ (rd rs rt : Reg) (s : State), ∃ t, exec (.and rd rs rt) s = .next t ∧
      OnlyWritesReg rd (s.cur.reg rs &&& s.cur.reg rt) s t) ∧
    (∀ (rd rs rt : Reg) (s : State), ∃ t, exec (.or rd rs rt) s = .next t ∧
      OnlyWritesReg rd (s.cur.reg rs ||| s.cur.reg rt) s t) ∧
    (∀ (rd rs rt : Reg) (s : State), ∃ t, exec (.xor rd rs rt) s = .next t ∧
      OnlyWritesReg rd (s.cur.reg rs ^^^ s.cur.reg rt) s t) ∧
    (∀ (rd rs rt : Reg) (s : State), ∃ t, exec (.nor rd rs rt) s = .next t ∧
      OnlyWritesReg rd (~~~(s.cur.reg rs ||| s.cur.reg rt)) s t)

/-- R168, R169: SLT and SLTU write 1 if x[rs] is less than x[rt], signed or unsigned, else 0, and change nothing else.
-/
def Obligations.RegisterCompare : Prop :=
  DecodesSpecial 0x2A#6 (fun w => .slt (rdOf w) (rsOf w) (rtOf w)) ∧
    DecodesSpecial 0x2B#6 (fun w => .sltu (rdOf w) (rsOf w) (rtOf w)) ∧
    (∀ (rd rs rt : Reg) (s : State), ∃ t, exec (.slt rd rs rt) s = .next t ∧
      OnlyWritesReg rd (if (s.cur.reg rs).toInt < (s.cur.reg rt).toInt then 1 else 0) s t) ∧
    (∀ (rd rs rt : Reg) (s : State), ∃ t, exec (.sltu rd rs rt) s = .next t ∧
      OnlyWritesReg rd (if (s.cur.reg rs).toNat < (s.cur.reg rt).toNat then 1 else 0) s t)

/-- R180, R181: J and JAL jump inside the 256 MiB segment of their own address; JAL links PC + 4 into register 31. -/
def Obligations.JumpAndJumpAndLink : Prop :=
  DecodesOpcode 0x02#6 (fun w => .j (targetOf w)) ∧
    DecodesOpcode 0x03#6 (fun w => .jal (targetOf w)) ∧
    (∀ (target : BitVec 26) (s : State), ∃ t, exec (.j target) s = .next t ∧ OnlyJumps (jtOf s target) s t) ∧
    (∀ (target : BitVec 26) (s : State), ∃ t, exec (.jal target) s = .next t ∧
      OnlyLinksAndJumps 31 (s.cur.pc + 4) (jtOf s target) s t)

/-- R196, R197: BEQ and BNE branch on x[rs] equal or not equal to x[rt], without a delay slot, and change nothing
else. -/
def Obligations.BranchOnEquality : Prop :=
  DecodesOpcode 0x04#6 (fun w => .beq (rsOf w) (rtOf w) (immOf w)) ∧
    DecodesOpcode 0x05#6 (fun w => .bne (rsOf w) (rtOf w) (immOf w)) ∧
    (∀ (rs rt : Reg) (imm : BitVec 16) (s : State), ∃ t, exec (.beq rs rt imm) s = .next t ∧
      OnlyJumps (branchPc s (s.cur.reg rs = s.cur.reg rt) imm) s t) ∧
    (∀ (rs rt : Reg) (imm : BitVec 16) (s : State), ∃ t, exec (.bne rs rt imm) s = .next t ∧
      OnlyJumps (branchPc s (s.cur.reg rs ≠ s.cur.reg rt) imm) s t)

/-- R192, R193, R198 and R199, whose signedness is the spec's decision D12. -/
def Obligations.BranchOnSign : Prop :=
  DecodesRegimm 0x00#5 (fun w => .bltz (rsOf w) (immOf w)) ∧
    DecodesRegimm 0x01#5 (fun w => .bgez (rsOf w) (immOf w)) ∧
    DecodesOpcode 0x06#6 (fun w => .blez (rsOf w) (immOf w)) ∧
    DecodesOpcode 0x07#6 (fun w => .bgtz (rsOf w) (immOf w)) ∧
    (∀ (rs : Reg) (imm : BitVec 16) (s : State), ∃ t, exec (.bltz rs imm) s = .next t ∧
      OnlyJumps (branchPc s ((s.cur.reg rs).toInt < 0) imm) s t) ∧
    (∀ (rs : Reg) (imm : BitVec 16) (s : State), ∃ t, exec (.bgez rs imm) s = .next t ∧
      OnlyJumps (branchPc s (0 ≤ (s.cur.reg rs).toInt) imm) s t) ∧
    (∀ (rs : Reg) (imm : BitVec 16) (s : State), ∃ t, exec (.blez rs imm) s = .next t ∧
      OnlyJumps (branchPc s ((s.cur.reg rs).toInt ≤ 0) imm) s t) ∧
    (∀ (rs : Reg) (imm : BitVec 16) (s : State), ∃ t, exec (.bgtz rs imm) s = .next t ∧
      OnlyJumps (branchPc s (0 < (s.cur.reg rs).toInt) imm) s t)

/-- R194 and R195, whose unconditional link and signedness are the spec's decisions D11 and D12. -/
def Obligations.BranchAndLink : Prop :=
  DecodesRegimm 0x10#5 (fun w => .bltzal (rsOf w) (immOf w)) ∧
    DecodesRegimm 0x11#5 (fun w => .bgezal (rsOf w) (immOf w)) ∧
    (∀ (rs : Reg) (imm : BitVec 16) (s : State), ∃ t, exec (.bltzal rs imm) s = .next t ∧
      OnlyLinksAndJumps 31 (s.cur.pc + 4) (branchPc s ((s.cur.reg rs).toInt < 0) imm) s t) ∧
    (∀ (rs : Reg) (imm : BitVec 16) (s : State), ∃ t, exec (.bgezal rs imm) s = .next t ∧
      OnlyLinksAndJumps 31 (s.cur.pc + 4) (branchPc s (0 ≤ (s.cur.reg rs).toInt) imm) s t)

/-- R211: ADDIU adds the sign-extended immediate modulo 2^32 and changes nothing else. -/
def Obligations.AddImmediateUnsigned : Prop :=
  DecodesOpcode 0x09#6 (fun w => .addiu (rtOf w) (rsOf w) (immOf w)) ∧
    (∀ (rt rs : Reg) (imm : BitVec 16) (s : State), ∃ t, exec (.addiu rt rs imm) s = .next t ∧
      OnlyWritesReg rt (s.cur.reg rs + imm.signExtend 32) s t)

/-- R212, R213: SLTI and SLTIU compare x[rs] with the sign-extended immediate, signed or unsigned, and change nothing
else. -/
def Obligations.CompareImmediate : Prop :=
  DecodesOpcode 0x0A#6 (fun w => .slti (rtOf w) (rsOf w) (immOf w)) ∧
    DecodesOpcode 0x0B#6 (fun w => .sltiu (rtOf w) (rsOf w) (immOf w)) ∧
    (∀ (rt rs : Reg) (imm : BitVec 16) (s : State), ∃ t, exec (.slti rt rs imm) s = .next t ∧
      OnlyWritesReg rt (if (s.cur.reg rs).toInt < (imm.signExtend 32).toInt then 1 else 0) s t) ∧
    (∀ (rt rs : Reg) (imm : BitVec 16) (s : State), ∃ t, exec (.sltiu rt rs imm) s = .next t ∧
      OnlyWritesReg rt (if (s.cur.reg rs).toNat < (imm.signExtend 32).toNat then 1 else 0) s t)

/-- R214, R215, R216: ANDI, ORI and XORI combine x[rs] with the zero-extended immediate and change nothing else. -/
def Obligations.LogicalImmediate : Prop :=
  DecodesOpcode 0x0C#6 (fun w => .andi (rtOf w) (rsOf w) (immOf w)) ∧
    DecodesOpcode 0x0D#6 (fun w => .ori (rtOf w) (rsOf w) (immOf w)) ∧
    DecodesOpcode 0x0E#6 (fun w => .xori (rtOf w) (rsOf w) (immOf w)) ∧
    (∀ (rt rs : Reg) (imm : BitVec 16) (s : State), ∃ t, exec (.andi rt rs imm) s = .next t ∧
      OnlyWritesReg rt (s.cur.reg rs &&& (0#16 ++ imm)) s t) ∧
    (∀ (rt rs : Reg) (imm : BitVec 16) (s : State), ∃ t, exec (.ori rt rs imm) s = .next t ∧
      OnlyWritesReg rt (s.cur.reg rs ||| (0#16 ++ imm)) s t) ∧
    (∀ (rt rs : Reg) (imm : BitVec 16) (s : State), ∃ t, exec (.xori rt rs imm) s = .next t ∧
      OnlyWritesReg rt (s.cur.reg rs ^^^ (0#16 ++ imm)) s t)

/-- R217: LUI writes the immediate into the high half of rt, low half zero, and changes nothing else. -/
def Obligations.LoadUpperImmediate : Prop :=
  DecodesOpcode 0x0F#6 (fun w => .lui (rtOf w) (immOf w)) ∧
    (∀ (rt : Reg) (imm : BitVec 16) (s : State), ∃ t, exec (.lui rt imm) s = .next t ∧
      OnlyWritesReg rt (imm ++ 0#16) s t)

/-- R230, R233: LB and LBU load the byte at x[rs] + offset, sign- or zero-extended, and change nothing else. -/
def Obligations.LoadByte : Prop :=
  DecodesOpcode 0x20#6 (fun w => .lb (rtOf w) (rsOf w) (immOf w)) ∧
    DecodesOpcode 0x24#6 (fun w => .lbu (rtOf w) (rsOf w) (immOf w)) ∧
    (∀ (rt rs : Reg) (imm : BitVec 16) (s : State), s.map.wellFormed = true → 
      ∃ t, exec (.lb rt rs imm) s = .next t ∧ OnlyWritesReg rt
        ((s.byteSeen (eaOf s rs imm).toNat).signExtend 32) s t) ∧
    (∀ (rt rs : Reg) (imm : BitVec 16) (s : State), s.map.wellFormed = true → 
      ∃ t, exec (.lbu rt rs imm) s = .next t ∧ OnlyWritesReg rt
        (0#24 ++ s.byteSeen (eaOf s rs imm).toNat) s t)

/-- R231, R234: LH and LHU load the little-endian halfword at an even address, or raise UnalignedAddress and change
nothing. -/
def Obligations.LoadHalfword : Prop :=
  DecodesOpcode 0x21#6 (fun w => .lh (rtOf w) (rsOf w) (immOf w)) ∧
    DecodesOpcode 0x25#6 (fun w => .lhu (rtOf w) (rsOf w) (immOf w)) ∧
    (∀ (rt rs : Reg) (imm : BitVec 16) (s : State), s.map.wellFormed = true → (eaOf s rs imm).extractLsb' 0 1 = 0#1 → 
      ∃ t, exec (.lh rt rs imm) s = .next t ∧ OnlyWritesReg rt
        ((s.byteSeen ((eaOf s rs imm).toNat + 1) ++ s.byteSeen (eaOf s rs imm).toNat).signExtend 32) s t) ∧
    (∀ (rt rs : Reg) (imm : BitVec 16) (s : State), s.map.wellFormed = true → (eaOf s rs imm).extractLsb' 0 1 = 0#1 → 
      ∃ t, exec (.lhu rt rs imm) s = .next t ∧ OnlyWritesReg rt
        (0#16 ++ (s.byteSeen ((eaOf s rs imm).toNat + 1) ++ s.byteSeen (eaOf s rs imm).toNat)) s t) ∧
    (∀ (rt rs : Reg) (imm : BitVec 16) (s : State), (eaOf s rs imm).extractLsb' 0 1 ≠ 0#1 →
      ∃ t, exec (.lh rt rs imm) s = .next t ∧ OnlyHaltsUnaligned s t) ∧
    (∀ (rt rs : Reg) (imm : BitVec 16) (s : State), (eaOf s rs imm).extractLsb' 0 1 ≠ 0#1 →
      ∃ t, exec (.lhu rt rs imm) s = .next t ∧ OnlyHaltsUnaligned s t)

/-- R232: LW loads the little-endian word at an address that is a multiple of 4, or raises UnalignedAddress and
changes nothing. -/
def Obligations.LoadWord : Prop :=
  DecodesOpcode 0x23#6 (fun w => .lw (rtOf w) (rsOf w) (immOf w)) ∧
    (∀ (rt rs : Reg) (imm : BitVec 16) (s : State), s.map.wellFormed = true → (eaOf s rs imm).extractLsb' 0 2 = 0#2 → 
      ∃ t, exec (.lw rt rs imm) s = .next t ∧ OnlyWritesReg rt
        (s.byteSeen ((eaOf s rs imm).toNat + 3) ++ s.byteSeen ((eaOf s rs imm).toNat + 2) ++
          s.byteSeen ((eaOf s rs imm).toNat + 1) ++ s.byteSeen (eaOf s rs imm).toNat) s t) ∧
    (∀ (rt rs : Reg) (imm : BitVec 16) (s : State), (eaOf s rs imm).extractLsb' 0 2 ≠ 0#2 →
      ∃ t, exec (.lw rt rs imm) s = .next t ∧ OnlyHaltsUnaligned s t)

/-- R250: SB stores the low byte of x[rt] at x[rs] + offset and changes no other byte and nothing else. -/
def Obligations.StoreByte : Prop :=
  DecodesOpcode 0x28#6 (fun w => .sb (rtOf w) (rsOf w) (immOf w)) ∧
    (∀ (rt rs : Reg) (imm : BitVec 16) (s : State), s.map.wellFormed = true → s.mem.wf = true →
      ∃ t, exec (.sb rt rs imm) s = .next t ∧
        OnlyStores (eaOf s rs imm) 1 (s.cur.reg rt) s t)

/-- R251: SH stores the low halfword of x[rt] at an even address, or raises UnalignedAddress and changes nothing. -/
def Obligations.StoreHalfword : Prop :=
  DecodesOpcode 0x29#6 (fun w => .sh (rtOf w) (rsOf w) (immOf w)) ∧
    (∀ (rt rs : Reg) (imm : BitVec 16) (s : State), s.map.wellFormed = true → s.mem.wf = true →
      (eaOf s rs imm).extractLsb' 0 1 = 0#1 → ∃ t, exec (.sh rt rs imm) s = .next t ∧
        OnlyStores (eaOf s rs imm) 2 (s.cur.reg rt) s t) ∧
    (∀ (rt rs : Reg) (imm : BitVec 16) (s : State), (eaOf s rs imm).extractLsb' 0 1 ≠ 0#1 →
      ∃ t, exec (.sh rt rs imm) s = .next t ∧ OnlyHaltsUnaligned s t)

/-- R252: SW stores x[rt] at an address that is a multiple of 4, or raises UnalignedAddress and changes nothing. -/
def Obligations.StoreWord : Prop :=
  DecodesOpcode 0x2B#6 (fun w => .sw (rtOf w) (rsOf w) (immOf w)) ∧
    (∀ (rt rs : Reg) (imm : BitVec 16) (s : State), s.map.wellFormed = true → s.mem.wf = true →
      (eaOf s rs imm).extractLsb' 0 2 = 0#2 → ∃ t, exec (.sw rt rs imm) s = .next t ∧
        OnlyStores (eaOf s rs imm) 4 (s.cur.reg rt) s t) ∧
    (∀ (rt rs : Reg) (imm : BitVec 16) (s : State), (eaOf s rs imm).extractLsb' 0 2 ≠ 0#2 →
      ∃ t, exec (.sw rt rs imm) s = .next t ∧ OnlyHaltsUnaligned s t)
end

