-- ==== Sys2Proof/Laws/Encoding.lean ====
section
/-! SUPPORT. The fields of an encoded word read back (R81, R82), and what a word's two dispatch fields decide. -/

namespace Sys2Proof

/-! R-type words. -/

section RType

variable (rs rt rd shamt : BitVec 5) (funct : BitVec 6)

@[simp] theorem encodeR_opcode : (encodeR rs rt rd shamt funct).extractLsb' 26 6 = 0#6 := by
  change ((0x00#6 ++ rs ++ rt ++ rd ++ shamt ++ funct : BitVec (6 + 5 + 5 + 5 + 5 + 6))).extractLsb' 26 6 = 0#6
  iterate 5 rw [BitVec.extractLsb'_append_eq_of_le (by decide)]
  exact BitVec.extractLsb'_eq_self

@[simp] theorem encodeR_rs : (encodeR rs rt rd shamt funct).extractLsb' 21 5 = rs := by
  change ((0x00#6 ++ rs ++ rt ++ rd ++ shamt ++ funct : BitVec (6 + 5 + 5 + 5 + 5 + 6))).extractLsb' 21 5 = rs
  iterate 4 rw [BitVec.extractLsb'_append_eq_of_le (by decide)]
  exact BitVec.extractLsb'_append_eq_right

@[simp] theorem encodeR_rt : (encodeR rs rt rd shamt funct).extractLsb' 16 5 = rt := by
  change ((0x00#6 ++ rs ++ rt ++ rd ++ shamt ++ funct : BitVec (6 + 5 + 5 + 5 + 5 + 6))).extractLsb' 16 5 = rt
  iterate 3 rw [BitVec.extractLsb'_append_eq_of_le (by decide)]
  exact BitVec.extractLsb'_append_eq_right

@[simp] theorem encodeR_rd : (encodeR rs rt rd shamt funct).extractLsb' 11 5 = rd := by
  change ((0x00#6 ++ rs ++ rt ++ rd ++ shamt ++ funct : BitVec (6 + 5 + 5 + 5 + 5 + 6))).extractLsb' 11 5 = rd
  iterate 2 rw [BitVec.extractLsb'_append_eq_of_le (by decide)]
  exact BitVec.extractLsb'_append_eq_right

@[simp] theorem encodeR_shamt : (encodeR rs rt rd shamt funct).extractLsb' 6 5 = shamt := by
  change ((0x00#6 ++ rs ++ rt ++ rd ++ shamt ++ funct : BitVec (6 + 5 + 5 + 5 + 5 + 6))).extractLsb' 6 5 = shamt
  rw [BitVec.extractLsb'_append_eq_of_le (by decide)]
  exact BitVec.extractLsb'_append_eq_right

@[simp] theorem encodeR_funct : (encodeR rs rt rd shamt funct).extractLsb' 0 6 = funct :=
  BitVec.extractLsb'_append_eq_right

end RType

/-! I-type words. -/

section IType

variable (opcode : BitVec 6) (rs rt : BitVec 5) (imm : BitVec 16)

@[simp] theorem encodeI_opcode : (encodeI opcode rs rt imm).extractLsb' 26 6 = opcode := by
  change ((opcode ++ rs ++ rt ++ imm : BitVec (6 + 5 + 5 + 16))).extractLsb' 26 6 = opcode
  iterate 3 rw [BitVec.extractLsb'_append_eq_of_le (by decide)]
  exact BitVec.extractLsb'_eq_self

@[simp] theorem encodeI_rs : (encodeI opcode rs rt imm).extractLsb' 21 5 = rs := by
  change ((opcode ++ rs ++ rt ++ imm : BitVec (6 + 5 + 5 + 16))).extractLsb' 21 5 = rs
  iterate 2 rw [BitVec.extractLsb'_append_eq_of_le (by decide)]
  exact BitVec.extractLsb'_append_eq_right

@[simp] theorem encodeI_rt : (encodeI opcode rs rt imm).extractLsb' 16 5 = rt := by
  change ((opcode ++ rs ++ rt ++ imm : BitVec (6 + 5 + 5 + 16))).extractLsb' 16 5 = rt
  rw [BitVec.extractLsb'_append_eq_of_le (by decide)]
  exact BitVec.extractLsb'_append_eq_right

@[simp] theorem encodeI_imm : (encodeI opcode rs rt imm).extractLsb' 0 16 = imm :=
  BitVec.extractLsb'_append_eq_right

end IType

/-! J-type words. -/

section JType

variable (opcode : BitVec 6) (target : BitVec 26)

@[simp] theorem encodeJ_opcode : (encodeJ opcode target).extractLsb' 26 6 = opcode :=
  BitVec.extractLsb'_append_eq_left

@[simp] theorem encodeJ_target : (encodeJ opcode target).extractLsb' 0 26 = target :=
  BitVec.extractLsb'_append_eq_right

end JType

/-- The fields of a word, one by one (R82). -/
theorem decodeFields_eq (w : Word) :
    decodeFields w = ⟨w.extractLsb' 26 6, w.extractLsb' 21 5, w.extractLsb' 16 5, w.extractLsb' 11 5,
      w.extractLsb' 6 5, w.extractLsb' 0 6, w.extractLsb' 0 16, w.extractLsb' 0 26⟩ := rfl

/-! Which rows a word matches: opcode, `funct` and `rt` decide it (R84, R85, R87). -/

/-- Matching a row, from the three dispatch fields alone. -/
def OpcodeRow.matchesFields (r : OpcodeRow) (opcode funct rt : Nat) : Bool :=
  r.fixed.all fun (hi, _, value) => (if hi = 31 then opcode else if hi = 5 then funct else rt) == value

/-- The mnemonics of the rows that three dispatch fields select. -/
def rowsOfFields (opcode funct rt : Nat) : List String :=
  (opcodeTable.filter fun r => r.matchesFields opcode funct rt).map OpcodeRow.mnemonic

/-- The rows a word matches depend on its opcode, `funct` and `rt` alone. -/
theorem matchingRows_eq (w : Word) :
    matchingRows w = rowsOfFields (w.extractLsb' 26 6).toNat (w.extractLsb' 0 6).toNat (w.extractLsb' 16 5).toNat := by
  rfl

end Sys2Proof
end

