-- ==== Sys2Proof/Laws/State.lean ====
section
/-! SUPPORT. One lemma per field per named update of the state, each true by rfl, and what one register of a buffer reads
after each update of the buffer: a proof about the machine rewrites with these and unfolds no record update. -/

namespace Sys2Proof.Machine

/-! One buffer. -/

@[simp] theorem Arch.setReg_pc (a : Arch) (r : Reg) (v : Word) : (a.setReg r v).pc = a.pc := rfl
@[simp] theorem Arch.setReg_hi (a : Arch) (r : Reg) (v : Word) : (a.setReg r v).hi = a.hi := rfl
@[simp] theorem Arch.setReg_lo (a : Arch) (r : Reg) (v : Word) : (a.setReg r v).lo = a.lo := rfl

/-- A register reads the same whatever PC, HI and LO stand beside it. -/
@[simp] theorem Arch.reg_mk (a : Arch) (p h l : Word) (q : Reg) : (Arch.mk p a.regs h l).reg q = a.reg q := rfl

/-- Reading any register after one is written. -/
theorem Arch.reg_setReg (a : Arch) (r q : Reg) (v : Word) :
    (a.setReg r v).reg q = if q = r then v else a.reg q := by
  simp only [Arch.reg, Arch.setReg, Vector.getElem_set, BitVec.toNat_inj, eq_comm (a := r)]

@[simp] theorem Arch.reg_setReg_same (a : Arch) (r : Reg) (v : Word) : (a.setReg r v).reg r = v := by
  simp [Arch.reg_setReg]

theorem Arch.reg_setReg_ne (a : Arch) {r q : Reg} (v : Word) (h : q ≠ r) : (a.setReg r v).reg q = a.reg q := by
  simp [Arch.reg_setReg, h]

@[simp] theorem Arch.setReg_setReg (a : Arch) (r : Reg) (v w : Word) : (a.setReg r v).setReg r w = a.setReg r w := by
  simp [Arch.setReg]

/-- Two buffers that agree on PC, HI, LO and every register are equal. -/
theorem Arch.ext_reg {a b : Arch} (hpc : a.pc = b.pc) (hhi : a.hi = b.hi) (hlo : a.lo = b.lo)
    (hreg : ∀ r, a.reg r = b.reg r) : a = b := by
  obtain ⟨_, ra, _, _⟩ := a
  obtain ⟨_, rb, _, _⟩ := b
  have : ra = rb := by
    apply Vector.ext
    intro i hi
    have h := hreg (BitVec.ofNat 5 i)
    simpa [Arch.reg, Nat.mod_eq_of_lt hi] using h
  simp_all

/-! The whole state. -/

@[simp] theorem State.x_eq (s : State) (r : Reg) : s.x r = s.cur.reg r := rfl
@[simp] theorem State.pc_eq (s : State) : s.pc = s.cur.pc := rfl
@[simp] theorem State.link_eq (s : State) : s.link = s.cur.pc + 4 := rfl

@[simp] theorem State.setX_cur (s : State) (r : Reg) (v : Word) : (s.setX r v).cur = s.cur := rfl
@[simp] theorem State.setX_nxt (s : State) (r : Reg) (v : Word) : (s.setX r v).nxt = s.nxt.setReg r v := rfl
@[simp] theorem State.setX_run (s : State) (r : Reg) (v : Word) : (s.setX r v).run = s.run := rfl
@[simp] theorem State.setX_count (s : State) (r : Reg) (v : Word) : (s.setX r v).count = s.count := rfl
@[simp] theorem State.setX_outcome (s : State) (r : Reg) (v : Word) : (s.setX r v).outcome = s.outcome := rfl
@[simp] theorem State.setX_map (s : State) (r : Reg) (v : Word) : (s.setX r v).map = s.map := rfl
@[simp] theorem State.setX_mem (s : State) (r : Reg) (v : Word) : (s.setX r v).mem = s.mem := rfl

@[simp] theorem State.setHi_cur (s : State) (v : Word) : (s.setHi v).cur = s.cur := rfl
@[simp] theorem State.setHi_nxt (s : State) (v : Word) : (s.setHi v).nxt = { s.nxt with hi := v } := rfl
@[simp] theorem State.setHi_run (s : State) (v : Word) : (s.setHi v).run = s.run := rfl
@[simp] theorem State.setHi_count (s : State) (v : Word) : (s.setHi v).count = s.count := rfl
@[simp] theorem State.setHi_outcome (s : State) (v : Word) : (s.setHi v).outcome = s.outcome := rfl
@[simp] theorem State.setHi_map (s : State) (v : Word) : (s.setHi v).map = s.map := rfl
@[simp] theorem State.setHi_mem (s : State) (v : Word) : (s.setHi v).mem = s.mem := rfl

@[simp] theorem State.setLo_cur (s : State) (v : Word) : (s.setLo v).cur = s.cur := rfl
@[simp] theorem State.setLo_nxt (s : State) (v : Word) : (s.setLo v).nxt = { s.nxt with lo := v } := rfl
@[simp] theorem State.setLo_run (s : State) (v : Word) : (s.setLo v).run = s.run := rfl
@[simp] theorem State.setLo_count (s : State) (v : Word) : (s.setLo v).count = s.count := rfl
@[simp] theorem State.setLo_outcome (s : State) (v : Word) : (s.setLo v).outcome = s.outcome := rfl
@[simp] theorem State.setLo_map (s : State) (v : Word) : (s.setLo v).map = s.map := rfl
@[simp] theorem State.setLo_mem (s : State) (v : Word) : (s.setLo v).mem = s.mem := rfl

@[simp] theorem State.jumpTo_cur (s : State) (p : Word) : (s.jumpTo p).cur = s.cur := rfl
@[simp] theorem State.jumpTo_nxt (s : State) (p : Word) : (s.jumpTo p).nxt = { s.nxt with pc := p } := rfl
@[simp] theorem State.jumpTo_run (s : State) (p : Word) : (s.jumpTo p).run = s.run := rfl
@[simp] theorem State.jumpTo_count (s : State) (p : Word) : (s.jumpTo p).count = s.count := rfl
@[simp] theorem State.jumpTo_outcome (s : State) (p : Word) : (s.jumpTo p).outcome = s.outcome := rfl
@[simp] theorem State.jumpTo_map (s : State) (p : Word) : (s.jumpTo p).map = s.map := rfl
@[simp] theorem State.jumpTo_mem (s : State) (p : Word) : (s.jumpTo p).mem = s.mem := rfl

@[simp] theorem State.halt_cur (s : State) : s.halt.cur = s.cur := rfl
@[simp] theorem State.halt_nxt (s : State) : s.halt.nxt = s.nxt := rfl
@[simp] theorem State.halt_run (s : State) : s.halt.run = false := rfl
@[simp] theorem State.halt_count (s : State) : s.halt.count = s.count := rfl
@[simp] theorem State.halt_outcome (s : State) : s.halt.outcome = s.outcome := rfl
@[simp] theorem State.halt_map (s : State) : s.halt.map = s.map := rfl
@[simp] theorem State.halt_mem (s : State) : s.halt.mem = s.mem := rfl

@[simp] theorem State.raise_cur (s : State) (o : OutcomeCode) : (s.raise o).cur = s.cur := rfl
@[simp] theorem State.raise_nxt (s : State) (o : OutcomeCode) : (s.raise o).nxt = { s.nxt with pc := s.cur.pc } := rfl
@[simp] theorem State.raise_run (s : State) (o : OutcomeCode) : (s.raise o).run = false := rfl
@[simp] theorem State.raise_count (s : State) (o : OutcomeCode) : (s.raise o).count = s.count := rfl
@[simp] theorem State.raise_outcome (s : State) (o : OutcomeCode) : (s.raise o).outcome = o := rfl
@[simp] theorem State.raise_map (s : State) (o : OutcomeCode) : (s.raise o).map = s.map := rfl
@[simp] theorem State.raise_mem (s : State) (o : OutcomeCode) : (s.raise o).mem = s.mem := rfl

@[simp] theorem State.commit_cur (s : State) : s.commit.cur = s.nxt := rfl
@[simp] theorem State.commit_nxt (s : State) : s.commit.nxt = s.nxt := rfl
@[simp] theorem State.commit_run (s : State) : s.commit.run = s.run := rfl
@[simp] theorem State.commit_count (s : State) : s.commit.count = s.count + 1 := rfl
@[simp] theorem State.commit_outcome (s : State) : s.commit.outcome = s.outcome := rfl
@[simp] theorem State.commit_map (s : State) : s.commit.map = s.map := rfl
@[simp] theorem State.commit_mem (s : State) : s.commit.mem = s.mem := rfl

@[simp] theorem State.beginStep_cur (s : State) : s.beginStep.cur = s.cur.setReg 0 0 := rfl
@[simp] theorem State.beginStep_nxt (s : State) : s.beginStep.nxt = { s.cur.setReg 0 0 with pc := s.cur.pc + 4 } := rfl
@[simp] theorem State.beginStep_run (s : State) : s.beginStep.run = s.run := rfl
@[simp] theorem State.beginStep_count (s : State) : s.beginStep.count = s.count := rfl
@[simp] theorem State.beginStep_outcome (s : State) : s.beginStep.outcome = .ok := rfl
@[simp] theorem State.beginStep_map (s : State) : s.beginStep.map = s.map := rfl
@[simp] theorem State.beginStep_mem (s : State) : s.beginStep.mem = s.mem := rfl

@[simp] theorem State.hostSetRun_cur (s : State) (b : Bool) : (s.hostSetRun b).cur = s.cur := rfl
@[simp] theorem State.hostSetRun_nxt (s : State) (b : Bool) : (s.hostSetRun b).nxt = s.nxt := rfl
@[simp] theorem State.hostSetRun_run (s : State) (b : Bool) : (s.hostSetRun b).run = b := rfl
@[simp] theorem State.hostSetRun_count (s : State) (b : Bool) : (s.hostSetRun b).count = s.count := rfl
@[simp] theorem State.hostSetRun_outcome (s : State) (b : Bool) : (s.hostSetRun b).outcome = s.outcome := rfl
@[simp] theorem State.hostSetRun_map (s : State) (b : Bool) : (s.hostSetRun b).map = s.map := rfl
@[simp] theorem State.hostSetRun_mem (s : State) (b : Bool) : (s.hostSetRun b).mem = s.mem := rfl

@[simp] theorem State.write32_cur (s : State) (a v : Word) : (s.write32 a v).cur = s.cur := by
  unfold State.write32; split <;> rfl
@[simp] theorem State.write32_nxt (s : State) (a v : Word) : (s.write32 a v).nxt = s.nxt := by
  unfold State.write32; split <;> rfl
@[simp] theorem State.write32_run (s : State) (a v : Word) : (s.write32 a v).run = s.run := by
  unfold State.write32; split <;> rfl
@[simp] theorem State.write32_count (s : State) (a v : Word) : (s.write32 a v).count = s.count := by
  unfold State.write32; split <;> rfl
@[simp] theorem State.write32_outcome (s : State) (a v : Word) : (s.write32 a v).outcome = s.outcome := by
  unfold State.write32; split <;> rfl
@[simp] theorem State.write32_map (s : State) (a v : Word) : (s.write32 a v).map = s.map := by
  unfold State.write32; split <;> rfl
@[simp] theorem State.write32_mem (s : State) (a v : Word) :
    (s.write32 a v).mem = if s.map.mapped a.toNat then s.mem.setWord a.toNat v else s.mem := by
  unfold State.write32; split <;> rfl

/-- `read32` depends on the map and the memory alone. -/
theorem State.read32_congr {s t : State} (hmap : t.map = s.map) (hmem : t.mem = s.mem) (a : Word) :
    t.read32 a = s.read32 a := by
  unfold State.read32; rw [hmap, hmem]

end Sys2Proof.Machine
end

