-- ==== Sys2Proof/Laws/Memory.lean ====
section
/-! SUPPORT. Memory: every operation keeps the canonical form; a byte reads as it was last written and as before
elsewhere; a word is its four bytes; an aligned word lies in one region whole. -/

namespace Sys2Proof.Machine

/-! One byte. -/

theorem Memory.wfFrom_mono {lo hi : Nat} (h : lo ≤ hi) : ∀ {m : Memory}, m.wfFrom hi = true → m.wfFrom lo = true
  | [], _ => rfl
  | (a, b) :: rest, hm => by
    simp only [Memory.wfFrom, Bool.and_eq_true, decide_eq_true_eq] at hm ⊢
    exact ⟨⟨by omega, hm.1.2⟩, hm.2⟩

/-- Below the first address of a canonical memory nothing is listed. -/
theorem Memory.byteAt_below {lo a : Nat} (h : a < lo) : ∀ {m : Memory}, m.wfFrom lo = true → m.byteAt a = 0
  | [], _ => rfl
  | (k, b) :: rest, hm => by
    simp only [Memory.wfFrom, Bool.and_eq_true, decide_eq_true_eq] at hm
    have hk : ¬ k = a := by omega
    simp only [Memory.byteAt, hk, if_false]
    exact Memory.byteAt_below (lo := k + 1) (by omega) hm.2

theorem Memory.setByte_wfFrom {a : Nat} (b : Byte) :
    ∀ {m : Memory} {lo : Nat}, lo ≤ a → m.wfFrom lo = true → (m.setByte a b).wfFrom lo = true
  | [], _, h, _ => by
    simp only [Memory.setByte]
    split <;> simp_all [Memory.wfFrom]
  | (k, c) :: rest, lo, h, hm => by
    simp only [Memory.wfFrom, Bool.and_eq_true, decide_eq_true_eq, bne_iff_ne] at hm
    obtain ⟨⟨hk, hc⟩, hr⟩ := hm
    simp only [Memory.setByte]
    split
    · split
      · simp only [Memory.wfFrom, Bool.and_eq_true, decide_eq_true_eq, bne_iff_ne]
        exact ⟨⟨hk, hc⟩, hr⟩
      · simp only [Memory.wfFrom, Bool.and_eq_true, decide_eq_true_eq, bne_iff_ne]
        exact ⟨⟨h, by assumption⟩, ⟨by omega, hc⟩, hr⟩
    · split
      · split
        · exact Memory.wfFrom_mono (by omega) hr
        · simp only [Memory.wfFrom, Bool.and_eq_true, decide_eq_true_eq, bne_iff_ne]
          subst_vars
          exact ⟨⟨h, by assumption⟩, hr⟩
      · simp only [Memory.wfFrom, Bool.and_eq_true, decide_eq_true_eq, bne_iff_ne]
        exact ⟨⟨hk, hc⟩, Memory.setByte_wfFrom b (by omega) hr⟩

/-- Writing a byte keeps the canonical form. -/
theorem Memory.setByte_wf {m : Memory} (a : Nat) (b : Byte) (h : m.wf = true) : (m.setByte a b).wf = true :=
  Memory.setByte_wfFrom b (Nat.zero_le a) h

theorem Memory.byteAt_setByte_same_from {lo a : Nat} (b : Byte) :
    ∀ {m : Memory}, m.wfFrom lo = true → (m.setByte a b).byteAt a = b
  | [], _ => by
    simp only [Memory.setByte]
    split <;> simp_all [Memory.byteAt]
  | (k, c) :: rest, hm => by
    simp only [Memory.wfFrom, Bool.and_eq_true, decide_eq_true_eq, bne_iff_ne] at hm
    obtain ⟨⟨hk, hc⟩, hr⟩ := hm
    simp only [Memory.setByte]
    split
    · split
      · rename_i hak hb
        have hka : ¬ k = a := by omega
        simp only [Memory.byteAt, hka, if_false, hb]
        exact Memory.byteAt_below (by omega) hr
      · simp [Memory.byteAt]
    · split
      · split
        · rename_i hb
          subst_vars
          exact Memory.byteAt_below (by omega) hr
        · simp [Memory.byteAt]
      · have hka : ¬ k = a := by omega
        simp only [Memory.byteAt, hka, if_false]
        exact Memory.byteAt_setByte_same_from b hr

theorem Memory.byteAt_setByte_ne {a c : Nat} (b : Byte) (h : c ≠ a) :
    ∀ {m : Memory}, (m.setByte a b).byteAt c = m.byteAt c
  | [] => by
    have ha : ¬ a = c := fun e => h e.symm
    simp only [Memory.setByte]
    split <;> simp [Memory.byteAt, ha]
  | (k, d) :: rest => by
    have ha : ¬ a = c := fun e => h e.symm
    simp only [Memory.setByte]
    split
    · split <;> simp [Memory.byteAt, ha]
    · split
      · rename_i hk
        subst hk
        split <;> simp [Memory.byteAt, ha]
      · simp only [Memory.byteAt]
        rw [Memory.byteAt_setByte_ne b h]

/-- What every byte reads after one is written. -/
theorem Memory.byteAt_setByte {m : Memory} (h : m.wf = true) (a c : Nat) (b : Byte) :
    (m.setByte a b).byteAt c = if c = a then b else m.byteAt c := by
  split
  · subst_vars
    exact Memory.byteAt_setByte_same_from b h
  · exact Memory.byteAt_setByte_ne b ‹_›

/-! One word. -/

/-- Writing a word keeps the canonical form. -/
theorem Memory.setWord_wf {m : Memory} (a : Nat) (v : Word) (h : m.wf = true) : (m.setWord a v).wf = true := by
  unfold Memory.setWord
  exact Memory.setByte_wf _ _ (Memory.setByte_wf _ _ (Memory.setByte_wf _ _ (Memory.setByte_wf _ _ h)))

/-- What every byte reads after a word is written: the word's byte inside it, the old byte outside (R62, R64). -/
theorem Memory.byteAt_setWord {m : Memory} (h : m.wf = true) (a c : Nat) (v : Word) :
    (m.setWord a v).byteAt c =
      if a ≤ c ∧ c < a + 4 then v.extractLsb' (8 * (c - a)) 8 else m.byteAt c := by
  have h1 := Memory.setByte_wf a (v.extractLsb' 0 8) h
  have h2 := Memory.setByte_wf (a + 1) (v.extractLsb' 8 8) h1
  have h3 := Memory.setByte_wf (a + 2) (v.extractLsb' 16 8) h2
  unfold Memory.setWord
  rw [Memory.byteAt_setByte h3, Memory.byteAt_setByte h2, Memory.byteAt_setByte h1, Memory.byteAt_setByte h]
  by_cases e3 : c = a + 3
  · subst e3; simp
  by_cases e2 : c = a + 2
  · subst e2; simp
  by_cases e1 : c = a + 1
  · subst e1; simp
  by_cases e0 : c = a
  · subst e0; simp
  have hout : ¬ (a ≤ c ∧ c < a + 4) := by omega
  simp [e0, e1, e2, e3, hout]

/-- A word assembled from the four bytes of a word is that word (R64). -/
theorem wordOfBytes_extract (v : Word) :
    wordOfBytes (v.extractLsb' 0 8) (v.extractLsb' 8 8) (v.extractLsb' 16 8) (v.extractLsb' 24 8) = v := by
  unfold wordOfBytes
  rw [BitVec.extractLsb'_append_extractLsb'_eq_extractLsb' (by rfl),
    BitVec.extractLsb'_append_extractLsb'_eq_extractLsb' (by rfl),
    BitVec.extractLsb'_append_extractLsb'_eq_extractLsb' (by rfl)]
  exact BitVec.extractLsb'_eq_self

/-- The byte lanes of a word assembled from four bytes (R64). -/
theorem wordOfBytes_lane0 (b0 b1 b2 b3 : Byte) : (wordOfBytes b0 b1 b2 b3).extractLsb' 0 8 = b0 := by
  change ((b3 ++ b2 ++ b1 ++ b0 : BitVec (8 + 8 + 8 + 8))).extractLsb' 0 8 = b0
  simp only [BitVec.extractLsb'_append_eq_right]

theorem wordOfBytes_lane1 (b0 b1 b2 b3 : Byte) : (wordOfBytes b0 b1 b2 b3).extractLsb' 8 8 = b1 := by
  change ((b3 ++ b2 ++ b1 ++ b0 : BitVec (8 + 8 + 8 + 8))).extractLsb' 8 8 = b1
  rw [BitVec.extractLsb'_append_eq_of_le (by decide), BitVec.extractLsb'_append_eq_right]

theorem wordOfBytes_lane2 (b0 b1 b2 b3 : Byte) : (wordOfBytes b0 b1 b2 b3).extractLsb' 16 8 = b2 := by
  change ((b3 ++ b2 ++ b1 ++ b0 : BitVec (8 + 8 + 8 + 8))).extractLsb' 16 8 = b2
  rw [BitVec.extractLsb'_append_eq_of_le (by decide), BitVec.extractLsb'_append_eq_of_le (by decide),
    BitVec.extractLsb'_append_eq_right]

theorem wordOfBytes_lane3 (b0 b1 b2 b3 : Byte) : (wordOfBytes b0 b1 b2 b3).extractLsb' 24 8 = b3 := by
  change ((b3 ++ b2 ++ b1 ++ b0 : BitVec (8 + 8 + 8 + 8))).extractLsb' 24 8 = b3
  rw [BitVec.extractLsb'_append_eq_of_le (by decide), BitVec.extractLsb'_append_eq_of_le (by decide),
    BitVec.extractLsb'_append_eq_of_le (by decide)]
  exact BitVec.extractLsb'_eq_self

/-- Reading back the word just written (R61, R62). -/
theorem Memory.wordAt_setWord_same {m : Memory} (h : m.wf = true) (a : Nat) (v : Word) :
    (m.setWord a v).wordAt a = v := by
  simp only [Memory.wordAt, Memory.byteAt_setWord h]
  simp [wordOfBytes_extract]

/-- A word that shares no byte with the one written reads as before. -/
theorem Memory.wordAt_setWord_apart {m : Memory} (h : m.wf = true) {a c : Nat} (v : Word)
    (hac : c + 4 ≤ a ∨ a + 4 ≤ c) : (m.setWord a v).wordAt c = m.wordAt c := by
  simp only [Memory.wordAt, Memory.byteAt_setWord h]
  rw [if_neg (by omega), if_neg (by omega), if_neg (by omega), if_neg (by omega)]

/-! Which addresses are listed. -/

theorem Memory.mem_setByte {a : Nat} {b : Byte} {c : Host.Cell} :
    ∀ {m : Memory}, c ∈ m.setByte a b → c = (a, b) ∨ c ∈ m
  | [], h => by
    simp only [Memory.setByte] at h
    split at h <;> simp_all
  | (k, d) :: rest, h => by
    simp only [Memory.setByte] at h
    split at h
    · split at h
      · exact .inr h
      · simpa using h
    · split at h
      · split at h
        · exact .inr (List.mem_cons_of_mem _ h)
        · rcases List.mem_cons.1 h with h | h
          · exact .inl h
          · exact .inr (List.mem_cons_of_mem _ h)
      · rcases List.mem_cons.1 h with h | h
        · exact .inr (h ▸ List.mem_cons_self)
        · rcases Memory.mem_setByte h with h | h
          · exact .inl h
          · exact .inr (List.mem_cons_of_mem _ h)

/-- A cell listed after a word is written is one of the word's four addresses or was listed before. -/
theorem Memory.mem_setWord {m : Memory} {a : Nat} {v : Word} {c : Host.Cell} (h : c ∈ m.setWord a v) :
    (a ≤ c.1 ∧ c.1 < a + 4) ∨ c ∈ m := by
  unfold Memory.setWord at h
  rcases Memory.mem_setByte h with h | h
  · subst h; exact .inl ⟨by simp, by simp⟩
  rcases Memory.mem_setByte h with h | h
  · subst h; exact .inl ⟨by simp, by simp⟩
  rcases Memory.mem_setByte h with h | h
  · subst h; exact .inl ⟨by simp, by simp⟩
  rcases Memory.mem_setByte h with h | h
  · subst h; exact .inl ⟨by simp, by simp⟩
  · exact .inr h

/-! The region map. -/

/-- An address is mapped exactly when one of the five regions holds it. -/
theorem mapped_iff (m : RegionMap) (a : Nat) :
    m.mapped a = true ↔ ∃ r ∈ m.regions, r.base ≤ a ∧ a < r.base + r.size := by
  simp [RegionMap.mapped, RegionMap.regionOf, Region.contains]

/-- Under a well-formed map a region's base and size are multiples of 4 and it ends within the space (R60). -/
theorem wellFormed_region {m : RegionMap} (h : m.wellFormed = true) {r : Region} (hr : r ∈ m.regions) :
    r.base % 4 = 0 ∧ r.size % 4 = 0 ∧ r.base + r.size ≤ 2 ^ 32 := by
  simp only [RegionMap.wellFormed, Bool.and_eq_true, List.all_eq_true] at h
  have := h.1 r hr
  simp only [Region.wellFormed, Bool.and_eq_true, beq_iff_eq, decide_eq_true_eq] at this
  omega

/-- Under a well-formed map the four bytes of an aligned word are mapped together or not at all. -/
theorem mapped_lane {m : RegionMap} (h : m.wellFormed = true) {a k : Nat} (ha : a % 4 = 0) (hk : k < 4) :
    m.mapped (a + k) = m.mapped a := by
  rw [Bool.eq_iff_iff, mapped_iff, mapped_iff]
  constructor <;> rintro ⟨r, hr, h1, h2⟩ <;> obtain ⟨hb, hs, _⟩ := wellFormed_region h hr <;>
    exact ⟨r, hr, by omega, by omega⟩

/-- Under a well-formed map every mapped address lies in the space of 2^32 bytes. -/
theorem mapped_lt {m : RegionMap} (h : m.wellFormed = true) {a : Nat} (ha : m.mapped a = true) : a < 2 ^ 32 := by
  obtain ⟨r, hr, _, h2⟩ := (mapped_iff m a).1 ha
  have := wellFormed_region h hr
  omega

/-! `write32` on the state. -/

/-- `write32` keeps the canonical form of memory. -/
theorem State.write32_wf {s : State} (a v : Word) (h : s.mem.wf = true) : (s.write32 a v).mem.wf = true := by
  rw [State.write32_mem]
  split
  · exact Memory.setWord_wf _ _ h
  · exact h

/-- Placing an instruction at the PC keeps the canonical form of memory. -/
theorem State.withFetchWord_wf {s : State} (nbits w : Nat) (h : s.mem.wf = true) :
    (s.withFetchWord nbits w).mem.wf = true :=
  State.write32_wf _ _ h

/-- A store of any width keeps the canonical form of memory. -/
theorem State.memWrite8_wf {s : State} (a v : Word) (h : s.mem.wf = true) : (s.memWrite8 a v).mem.wf = true :=
  State.write32_wf _ _ h

theorem State.memWrite16_wf {s : State} (a v : Word) (h : s.mem.wf = true) : (s.memWrite16 a v).mem.wf = true :=
  State.write32_wf _ _ h

theorem State.memWrite32_wf {s : State} (a v : Word) (h : s.mem.wf = true) : (s.memWrite32 a v).mem.wf = true :=
  State.write32_wf _ _ h

/-- The loader keeps the canonical form of memory. -/
theorem State.loadFrom_wf : ∀ (ws : List Word) {s : State} (a : Word), s.mem.wf = true → (s.loadFrom a ws).mem.wf = true
  | [], _, _, h => h
  | w :: ws, _, a, h => State.loadFrom_wf ws (a + 4) (State.write32_wf a w h)

/-- Memory at reset is canonical. -/
theorem State.resetWith_mem_wf (m : RegionMap) : (State.resetWith m).mem.wf = true := rfl

end Sys2Proof.Machine
end

