-- ==== Sys2Proof/Laws/Exec.lean ====
section
/-! SUPPORT. What executing an instruction can do, said once: `exec_effect` lists the shapes of a next state and
`exec_fault` the one way to fault. Proofs about all instructions cite these and split on no instruction. -/

namespace Sys2Proof.Machine

/-! Alignment. -/

theorem aligned4_iff (a : Word) : aligned4 a = true ↔ a.toNat % 4 = 0 := by
  simp only [aligned4, beq_iff_eq, ← BitVec.toNat_inj, BitVec.extractLsb'_toNat]
  simp

theorem aligned2_iff (a : Word) : aligned2 a = true ↔ a.toNat % 2 = 0 := by
  simp only [aligned2, beq_iff_eq, ← BitVec.toNat_inj, BitVec.extractLsb'_toNat]
  simp

theorem aligned4_add4 {a : Word} (h : aligned4 a = true) : aligned4 (a + 4) = true := by
  rw [aligned4_iff] at h ⊢
  have h4 : (4 : Word).toNat = 4 := rfl
  rw [BitVec.toNat_add, h4]
  omega

/-- The containing word's address is a multiple of 4 (R66). -/
theorem aligned4_wordAddr (a : Word) : aligned4 (wordAddr a) = true := by
  simp only [aligned4, wordAddr, beq_iff_eq]
  apply BitVec.eq_of_getLsbD_eq
  intro i hi
  have : i = 0 ∨ i = 1 := by omega
  rcases this with rfl | rfl <;> simp

/-- A branch target is a multiple of 4 if the PC is (R191). -/
theorem aligned4_branchTarget {s : State} (imm : BitVec 16) (h : aligned4 s.cur.pc = true) :
    aligned4 (s.branchTarget imm) = true := by
  rw [aligned4_iff] at h ⊢
  simp only [State.branchTarget, State.pc, BitVec.toNat_add, BitVec.toNat_shiftLeft, BitVec.toNat_ofNat,
    Nat.shiftLeft_eq]
  omega

/-- A jump target is a multiple of 4 if the PC is (R180). -/
theorem aligned4_jumpTarget {s : State} (target : BitVec 26) : aligned4 (s.jumpTarget target) = true := by
  simp only [aligned4, State.jumpTarget, beq_iff_eq]
  apply BitVec.eq_of_getLsbD_eq
  intro i hi
  have : i = 0 ∨ i = 1 := by omega
  rcases this with rfl | rfl <;> simp

/-! A branch (R190): the PC of `nxt` is all it can change. -/

@[simp] theorem State.branchIf_cur (s : State) (c : Bool) (imm : BitVec 16) : (s.branchIf c imm).cur = s.cur := by
  cases c <;> rfl
@[simp] theorem State.branchIf_run (s : State) (c : Bool) (imm : BitVec 16) : (s.branchIf c imm).run = s.run := by
  cases c <;> rfl
@[simp] theorem State.branchIf_count (s : State) (c : Bool) (imm : BitVec 16) : (s.branchIf c imm).count = s.count := by
  cases c <;> rfl
@[simp] theorem State.branchIf_outcome (s : State) (c : Bool) (imm : BitVec 16) : (s.branchIf c imm).outcome = s.outcome := by
  cases c <;> rfl
@[simp] theorem State.branchIf_map (s : State) (c : Bool) (imm : BitVec 16) : (s.branchIf c imm).map = s.map := by
  cases c <;> rfl
@[simp] theorem State.branchIf_mem (s : State) (c : Bool) (imm : BitVec 16) : (s.branchIf c imm).mem = s.mem := by
  cases c <;> rfl
@[simp] theorem State.branchIf_nxt (s : State) (c : Bool) (imm : BitVec 16) :
    (s.branchIf c imm).nxt = { s.nxt with pc := if c then s.branchTarget imm else s.nxt.pc } := by
  cases c <;> rfl

/-! The shapes of a next state. -/

/-- What `exec` may make of `s` when it answers a next state. -/
inductive Effect (s : State) : State → Prop
  /-- a branch not taken (R190). -/
  | nothing : Effect s s
  /-- `x[r] <- v` (R22). -/
  | writeReg (r : Reg) (v : Word) : Effect s (s.setX r v)
  /-- `HI <- v` (R141). -/
  | writeHi (v : Word) : Effect s (s.setHi v)
  /-- `LO <- v` (R143). -/
  | writeLo (v : Word) : Effect s (s.setLo v)
  /-- both, by a multiply (R144, R145). -/
  | product (p : Int) : Effect s (s.setProduct p)
  /-- both, by a divide (R146, R147). -/
  | quotient (q r : Int) : Effect s (s.setQuotient q r)
  /-- `pc <- p` (R190). -/
  | jump (p : Word) (h : aligned4 s.cur.pc = true → aligned4 p = true) : Effect s (s.jumpTo p)
  /-- a link, then `pc <- p` (R131, R181, R194, R195). -/
  | linkJump (r : Reg) (p : Word) (h : aligned4 s.cur.pc = true → aligned4 p = true) :
      Effect s ((s.setX r s.link).jumpTo p)
  /-- SYSCALL (R132). -/
  | system : Effect s (s.setX 2 0x0000000A#32).halt
  /-- a misaligned address or target (R272). -/
  | unaligned : Effect s (s.raise .unalignedAddress)
  /-- a store's one `write32`, at a multiple of 4 (R253). -/
  | store (a v : Word) (h : aligned4 a = true) : Effect s (s.write32 a v)

theorem effect_branchIf (s : State) (c : Bool) (imm : BitVec 16) : Effect s (s.branchIf c imm) := by
  unfold State.branchIf
  split
  · exact .jump _ fun h => aligned4_branchTarget imm h
  · exact .nothing

theorem effect_linkBranchIf (s : State) (c : Bool) (imm : BitVec 16) : Effect s ((s.setX 31 s.link).branchIf c imm) := by
  unfold State.branchIf
  split
  · exact .linkJump 31 _ fun h => aligned4_branchTarget (s := s) imm h
  · exact .writeReg _ _

/-- A next state of `exec` has one of the shapes of `Effect`. -/
theorem exec_effect {i : Instr} {s t : State} (h : exec i s = .next t) : Effect s t := by
  cases i with
  | jr rs =>
    simp only [exec, execJr] at h
    split at h <;> cases h
    · exact .jump _ fun _ => ‹_›
    · exact .unaligned
  | jalr rd rs =>
    simp only [exec, execJalr] at h
    split at h <;> cases h
    · exact .linkJump _ _ fun _ => ‹_›
    · exact .unaligned
  | syscall => cases h; exact .system
  | mthi rs => cases h; exact .writeHi _
  | mtlo rs => cases h; exact .writeLo _
  | mult rs rt => cases h; exact .product _
  | multu rs rt => cases h; exact .product _
  | div rs rt =>
    simp only [exec, execDiv, State.divideFault] at h
    split at h
    · cases h
    · split at h
      · cases h
      · cases h; exact .quotient _ _
  | divu rs rt =>
    simp only [exec, execDivu, State.divideFault] at h
    split at h
    · cases h
    · cases h; exact .quotient _ _
  | j target => cases h; exact .jump _ fun _ => aligned4_jumpTarget target
  | jal target => cases h; exact .linkJump _ _ fun _ => aligned4_jumpTarget target
  | bltz rs imm => cases h; exact effect_branchIf _ _ _
  | bgez rs imm => cases h; exact effect_branchIf _ _ _
  | bltzal rs imm => cases h; exact effect_linkBranchIf _ _ _
  | bgezal rs imm => cases h; exact effect_linkBranchIf _ _ _
  | beq rs rt imm => cases h; exact effect_branchIf _ _ _
  | bne rs rt imm => cases h; exact effect_branchIf _ _ _
  | blez rs imm => cases h; exact effect_branchIf _ _ _
  | bgtz rs imm => cases h; exact effect_branchIf _ _ _
  | lh rt rs imm =>
    simp only [exec, execLh] at h
    split at h <;> cases h
    · exact .writeReg _ _
    · exact .unaligned
  | lw rt rs imm =>
    simp only [exec, execLw] at h
    split at h <;> cases h
    · exact .writeReg _ _
    · exact .unaligned
  | lhu rt rs imm =>
    simp only [exec, execLhu] at h
    split at h <;> cases h
    · exact .writeReg _ _
    · exact .unaligned
  | sb rt rs imm => cases h; exact .store _ _ (aligned4_wordAddr _)
  | sh rt rs imm =>
    simp only [exec, execSh] at h
    split at h <;> cases h
    · exact .store _ _ (aligned4_wordAddr _)
    · exact .unaligned
  | sw rt rs imm =>
    simp only [exec, execSw] at h
    split at h <;> cases h
    · exact .store _ _ ‹_›
    · exact .unaligned
  | _ => cases h; exact .writeReg _ _

/-- `exec` faults only on an undefined divide, with the PC and the word (R276). -/
theorem exec_fault {i : Instr} {s : State} {f : Fault} (h : exec i s = .fault f) :
    undefinedDivide s.cur.reg i ∧ f = .undefinedDivide s.cur.pc (s.read32 s.cur.pc) := by
  cases i with
  | div rs rt =>
    simp only [exec, execDiv, State.divideFault] at h
    split at h
    · cases h; exact ⟨.inl ‹_›, rfl⟩
    · split at h
      · cases h; exact ⟨.inr ‹_›, rfl⟩
      · cases h
  | divu rs rt =>
    simp only [exec, execDivu, State.divideFault] at h
    split at h
    · cases h; exact ⟨‹_›, rfl⟩
    · cases h
  | jr rs => simp only [exec, execJr] at h; split at h <;> cases h
  | jalr rd rs => simp only [exec, execJalr] at h; split at h <;> cases h
  | lh rt rs imm => simp only [exec, execLh] at h; split at h <;> cases h
  | lw rt rs imm => simp only [exec, execLw] at h; split at h <;> cases h
  | lhu rt rs imm => simp only [exec, execLhu] at h; split at h <;> cases h
  | sh rt rs imm => simp only [exec, execSh] at h; split at h <;> cases h
  | sw rt rs imm => simp only [exec, execSw] at h; split at h <;> cases h
  | _ => cases h

/-- An undefined divide faults (R276). -/
theorem exec_undefinedDivide {i : Instr} {s : State} (h : undefinedDivide s.cur.reg i) :
    exec i s = .fault (.undefinedDivide s.cur.pc (s.read32 s.cur.pc)) := by
  cases i with
  | div rs rt =>
    show execDiv rs rt s = _
    unfold execDiv
    by_cases h0 : s.x rt = 0
    · rw [if_pos h0]; rfl
    · have h1 : s.x rs = 0x80000000#32 ∧ s.x rt = 0xFFFFFFFF#32 := Or.resolve_left h h0
      rw [if_neg h0, if_pos h1]; rfl
  | divu rs rt =>
    show execDivu rs rt s = _
    unfold execDivu
    rw [if_pos (show s.x rt = 0 from h)]; rfl
  | _ => exact h.elim

/-- `exec` refuses nothing. -/
theorem exec_ne_refused (i : Instr) (s : State) (r : Refusal) : exec i s ≠ .refused r := by
  intro h
  cases i with
  | div rs rt =>
    simp only [exec, execDiv, State.divideFault] at h
    split at h
    · cases h
    · split at h <;> cases h
  | divu rs rt => simp only [exec, execDivu, State.divideFault] at h; split at h <;> cases h
  | jr rs => simp only [exec, execJr] at h; split at h <;> cases h
  | jalr rd rs => simp only [exec, execJalr] at h; split at h <;> cases h
  | lh rt rs imm => simp only [exec, execLh] at h; split at h <;> cases h
  | lw rt rs imm => simp only [exec, execLw] at h; split at h <;> cases h
  | lhu rt rs imm => simp only [exec, execLhu] at h; split at h <;> cases h
  | sh rt rs imm => simp only [exec, execSh] at h; split at h <;> cases h
  | sw rt rs imm => simp only [exec, execSw] at h; split at h <;> cases h
  | _ => cases h

/-! What a shape leaves alone. -/

/-- No instruction touches the committed buffer, the counter or the map (R31, R27, R60). -/
theorem Effect.keeps {s t : State} (h : Effect s t) : t.cur = s.cur ∧ t.count = s.count ∧ t.map = s.map := by
  cases h <;> simp [State.setProduct, State.setQuotient]

/-- After an instruction the outcome is the old one or UnalignedAddress (R272, R273). -/
theorem Effect.outcome {s t : State} (h : Effect s t) : t.outcome = s.outcome ∨ t = s.raise .unalignedAddress := by
  cases h <;> simp [State.setProduct, State.setQuotient]

/-! The step. -/

/-- Fetching before and after the start of a step reads the same word. -/
theorem State.fetchWord_beginStep (s : State) : s.beginStep.fetchWord = s.read32 s.cur.pc :=
  rfl

/-- What a step does, by cases on the fetched word (R40). -/
theorem step_eq (s : State) :
    step s = match s.fetched with
      | .reject _ => .next (s.beginStep.raise .unknownInstruction).commit
      | .instr i => match exec i s.beginStep with
        | .next t => .next t.commit
        | .fault f => .fault f
        | .refused r => .refused r :=
  rfl

/-- A next state of a step comes from a rejected word or from an instruction's next state. -/
theorem step_next {s t : State} (h : step s = .next t) :
    (∃ why, s.fetched = .reject why ∧ t = (s.beginStep.raise .unknownInstruction).commit) ∨
    (∃ i u, s.fetched = .instr i ∧ exec i s.beginStep = .next u ∧ t = u.commit) := by
  rw [step_eq] at h
  split at h
  · rename_i why hf
    cases h
    exact .inl ⟨why, hf, rfl⟩
  · rename_i i hf
    split at h
    · rename_i u hu
      cases h
      exact .inr ⟨i, u, hf, hu, rfl⟩
    · cases h
    · cases h

/-- A step that takes the error path leaves exactly `erred` (R41, R278). -/
theorem raise_commit (s : State) (o : OutcomeCode) : (s.beginStep.raise o).commit = s.erred o :=
  rfl

end Sys2Proof.Machine
end

