-- ==== Sys2Proof/Laws/PerInstr.lean ====
section
/-! SUPPORT. The family EncodesInRow: the word of an instruction matches its own row of the opcode table and no other. -/

namespace Sys2Proof.Laws.EncodesInRow

/-- The encoded word matches exactly one row of the opcode table, the instruction's own (R88 to R90). -/
def Statement (i : Instr) : Prop :=
  matchingRows (encode i) = [i.mnemonic]

/-- The rows an R-type word matches. -/
theorem rowsR (rs rt rd shamt : BitVec 5) (funct : BitVec 6) :
    matchingRows (encodeR rs rt rd shamt funct) = rowsOfFields 0 funct.toNat rt.toNat := by
  simp [matchingRows_eq]

/-- The rows an I-type word matches. -/
theorem rowsI (opcode : BitVec 6) (rs rt : BitVec 5) (imm : BitVec 16) :
    matchingRows (encodeI opcode rs rt imm) =
      rowsOfFields opcode.toNat ((encodeI opcode rs rt imm).extractLsb' 0 6).toNat rt.toNat := by
  simp [matchingRows_eq]

/-- The rows a J-type word matches. -/
theorem rowsJ (opcode : BitVec 6) (target : BitVec 26) :
    matchingRows (encodeJ opcode target) =
      rowsOfFields opcode.toNat ((encodeJ opcode target).extractLsb' 0 6).toNat
        ((encodeJ opcode target).extractLsb' 16 5).toNat := by
  simp [matchingRows_eq]

theorem sll (rd rt : Reg) (shamt : BitVec 5) : Statement (.sll rd rt shamt) :=
  rowsR _ _ _ _ _

theorem srl (rd rt : Reg) (shamt : BitVec 5) : Statement (.srl rd rt shamt) :=
  rowsR _ _ _ _ _

theorem sra (rd rt : Reg) (shamt : BitVec 5) : Statement (.sra rd rt shamt) :=
  rowsR _ _ _ _ _

theorem sllv (rd rt rs : Reg) : Statement (.sllv rd rt rs) :=
  rowsR _ _ _ _ _

theorem srlv (rd rt rs : Reg) : Statement (.srlv rd rt rs) :=
  rowsR _ _ _ _ _

theorem srav (rd rt rs : Reg) : Statement (.srav rd rt rs) :=
  rowsR _ _ _ _ _

theorem jr (rs : Reg) : Statement (.jr rs) :=
  rowsR _ _ _ _ _

theorem jalr (rd rs : Reg) : Statement (.jalr rd rs) :=
  rowsR _ _ _ _ _

theorem syscall : Statement .syscall :=
  rowsR _ _ _ _ _

theorem mfhi (rd : Reg) : Statement (.mfhi rd) :=
  rowsR _ _ _ _ _

theorem mthi (rs : Reg) : Statement (.mthi rs) :=
  rowsR _ _ _ _ _

theorem mflo (rd : Reg) : Statement (.mflo rd) :=
  rowsR _ _ _ _ _

theorem mtlo (rs : Reg) : Statement (.mtlo rs) :=
  rowsR _ _ _ _ _

theorem mult (rs rt : Reg) : Statement (.mult rs rt) :=
  rowsR _ _ _ _ _

theorem multu (rs rt : Reg) : Statement (.multu rs rt) :=
  rowsR _ _ _ _ _

theorem div (rs rt : Reg) : Statement (.div rs rt) :=
  rowsR _ _ _ _ _

theorem divu (rs rt : Reg) : Statement (.divu rs rt) :=
  rowsR _ _ _ _ _

theorem add (rd rs rt : Reg) : Statement (.add rd rs rt) :=
  rowsR _ _ _ _ _

theorem addu (rd rs rt : Reg) : Statement (.addu rd rs rt) :=
  rowsR _ _ _ _ _

theorem sub (rd rs rt : Reg) : Statement (.sub rd rs rt) :=
  rowsR _ _ _ _ _

theorem subu (rd rs rt : Reg) : Statement (.subu rd rs rt) :=
  rowsR _ _ _ _ _

theorem and (rd rs rt : Reg) : Statement (.and rd rs rt) :=
  rowsR _ _ _ _ _

theorem or (rd rs rt : Reg) : Statement (.or rd rs rt) :=
  rowsR _ _ _ _ _

theorem xor (rd rs rt : Reg) : Statement (.xor rd rs rt) :=
  rowsR _ _ _ _ _

theorem nor (rd rs rt : Reg) : Statement (.nor rd rs rt) :=
  rowsR _ _ _ _ _

theorem slt (rd rs rt : Reg) : Statement (.slt rd rs rt) :=
  rowsR _ _ _ _ _

theorem sltu (rd rs rt : Reg) : Statement (.sltu rd rs rt) :=
  rowsR _ _ _ _ _

theorem bltz (rs : Reg) (imm : BitVec 16) : Statement (.bltz rs imm) :=
  rowsI _ _ _ _

theorem bgez (rs : Reg) (imm : BitVec 16) : Statement (.bgez rs imm) :=
  rowsI _ _ _ _

theorem bltzal (rs : Reg) (imm : BitVec 16) : Statement (.bltzal rs imm) :=
  rowsI _ _ _ _

theorem bgezal (rs : Reg) (imm : BitVec 16) : Statement (.bgezal rs imm) :=
  rowsI _ _ _ _

theorem j (target : BitVec 26) : Statement (.j target) :=
  rowsJ _ _

theorem jal (target : BitVec 26) : Statement (.jal target) :=
  rowsJ _ _

theorem beq (rs rt : Reg) (imm : BitVec 16) : Statement (.beq rs rt imm) :=
  rowsI _ _ _ _

theorem bne (rs rt : Reg) (imm : BitVec 16) : Statement (.bne rs rt imm) :=
  rowsI _ _ _ _

theorem blez (rs : Reg) (imm : BitVec 16) : Statement (.blez rs imm) :=
  rowsI _ _ _ _

theorem bgtz (rs : Reg) (imm : BitVec 16) : Statement (.bgtz rs imm) :=
  rowsI _ _ _ _

theorem addi (rt rs : Reg) (imm : BitVec 16) : Statement (.addi rt rs imm) :=
  rowsI _ _ _ _

theorem addiu (rt rs : Reg) (imm : BitVec 16) : Statement (.addiu rt rs imm) :=
  rowsI _ _ _ _

theorem slti (rt rs : Reg) (imm : BitVec 16) : Statement (.slti rt rs imm) :=
  rowsI _ _ _ _

theorem sltiu (rt rs : Reg) (imm : BitVec 16) : Statement (.sltiu rt rs imm) :=
  rowsI _ _ _ _

theorem andi (rt rs : Reg) (imm : BitVec 16) : Statement (.andi rt rs imm) :=
  rowsI _ _ _ _

theorem ori (rt rs : Reg) (imm : BitVec 16) : Statement (.ori rt rs imm) :=
  rowsI _ _ _ _

theorem xori (rt rs : Reg) (imm : BitVec 16) : Statement (.xori rt rs imm) :=
  rowsI _ _ _ _

theorem lui (rt : Reg) (imm : BitVec 16) : Statement (.lui rt imm) :=
  rowsI _ _ _ _

theorem lb (rt rs : Reg) (imm : BitVec 16) : Statement (.lb rt rs imm) :=
  rowsI _ _ _ _

theorem lh (rt rs : Reg) (imm : BitVec 16) : Statement (.lh rt rs imm) :=
  rowsI _ _ _ _

theorem lw (rt rs : Reg) (imm : BitVec 16) : Statement (.lw rt rs imm) :=
  rowsI _ _ _ _

theorem lbu (rt rs : Reg) (imm : BitVec 16) : Statement (.lbu rt rs imm) :=
  rowsI _ _ _ _

theorem lhu (rt rs : Reg) (imm : BitVec 16) : Statement (.lhu rt rs imm) :=
  rowsI _ _ _ _

theorem sb (rt rs : Reg) (imm : BitVec 16) : Statement (.sb rt rs imm) :=
  rowsI _ _ _ _

theorem sh (rt rs : Reg) (imm : BitVec 16) : Statement (.sh rt rs imm) :=
  rowsI _ _ _ _

theorem sw (rt rs : Reg) (imm : BitVec 16) : Statement (.sw rt rs imm) :=
  rowsI _ _ _ _

end Sys2Proof.Laws.EncodesInRow
end

