-- ==== Sys2Proof/Tests/Slice0.lean ====
section
/-! SUPPORT. Tests, each on one step or on one word. Every expected value is the spec's: the vectors V1 to V140 and S1 to
S12 of spec/95_test_vectors.md, or the rule named. The last section shows, for every obligation with hypotheses, that
they can be met together. -/

namespace Sys2Proof.Tests

open Sys2Proof Sys2Proof.Machine

/-! Small states: reset, a few registers set, and one word where the next step fetches. -/

def setRegs (regs : List (Reg × Word)) (s : State) : State :=
  let cur := regs.foldl (fun a rv => a.setReg rv.1 rv.2) s.cur
  { s with cur := cur, nxt := cur }

/-- Reset with the PC, the registers and the instruction word given. -/
def startAt (pc : Word) (regs : List (Reg × Word)) (w : Nat) : State :=
  let s := setRegs regs State.reset
  State.withFetchWord { s with cur := { s.cur with pc := pc }, nxt := { s.nxt with pc := pc } } 32 w

def start (regs : List (Reg × Word)) (w : Nat) : State :=
  startAt 0x00400000 regs w

def startHiLo (hi lo : Word) (w : Nat) : State :=
  let s := start [] w
  { s with cur := { s.cur with hi := hi, lo := lo } }

/-- The two DATA words the load and store vectors start from. -/
def startData (regs : List (Reg × Word)) (w : Nat) : State :=
  ((start regs w).write32 0x10000000 0x8899AABB).write32 0x10000004 0x11223344

/-- What one step leaves, if it answers a next state. -/
def after {α : Type} (s : State) (view : State → α) : Option α :=
  match step s with
  | .next t => some (view t)
  | .fault _ => none
  | .refused _ => none

/-- The fault one step ends in, if any. -/
def stops (s : State) : Option Fault :=
  match step s with
  | .next _ => none
  | .fault f => some f
  | .refused _ => none

/-! WellFormed: a REGION_MAP that fails each check of R60 is refused. -/

def textMap (base size : Nat) : RegionMap :=
  { Config.defaultMap with text := ⟨base, size⟩ }

theorem test_wellFormed_default : Config.defaultMap.wellFormed = true := by decide
theorem test_wellFormed_base_not_multiple_of_4 : (textMap 0x00400002 0x00100000).wellFormed = false := by decide
theorem test_wellFormed_size_not_multiple_of_4 : (textMap 0x00400000 0x00100001).wellFormed = false := by decide
theorem test_wellFormed_past_the_space : (textMap 0xFFFFFFFC 8).wellFormed = false := by decide
theorem test_wellFormed_ends_with_the_space : (textMap 0xFFFFFFFC 4).wellFormed = true := by decide
theorem test_wellFormed_overlap : (textMap 0x0FFFFFFC 8).wellFormed = false := by decide
/-- An empty region shares no address with the region around it (log 10); one of 4 bytes there does. -/
theorem test_wellFormed_empty_inside : (textMap 0x10000010 0).wellFormed = true := by decide
theorem test_wellFormed_inside : (textMap 0x10000010 4).wellFormed = false := by decide
theorem test_wellFormed_touching : (textMap 0x0FFFFFFC 4).wellFormed = true := by decide

/-- Canonical memory: a listed zero, a repeat and falling addresses are refused. -/
theorem test_memory_wf : Memory.wf [(1, 2), (5, 1)] = true ∧ Memory.wf [(1, 0)] = false ∧
    Memory.wf [(1, 2), (1, 3)] = false ∧ Memory.wf [(5, 1), (1, 2)] = false := by
  decide

/-! Decoding: one word per instruction, its fields written out bit by bit in the order of R81. -/

theorem test_decode_sll : decodeWord 0b000000_00000_00011_00010_00100_000000#32 = .instr (.sll 2 3 4) := by decide
theorem test_decode_srl : decodeWord 0b000000_00000_00011_00010_00100_000010#32 = .instr (.srl 2 3 4) := by decide
theorem test_decode_sra : decodeWord 0b000000_00000_00011_00010_00100_000011#32 = .instr (.sra 2 3 4) := by decide
theorem test_decode_sllv : decodeWord 0b000000_00100_00011_00010_00000_000100#32 = .instr (.sllv 2 3 4) := by decide
theorem test_decode_srlv : decodeWord 0b000000_00100_00011_00010_00000_000110#32 = .instr (.srlv 2 3 4) := by decide
theorem test_decode_srav : decodeWord 0b000000_00100_00011_00010_00000_000111#32 = .instr (.srav 2 3 4) := by decide
theorem test_decode_jr : decodeWord 0b000000_00100_00000_00000_00000_001000#32 = .instr (.jr 4) := by decide
theorem test_decode_jalr : decodeWord 0b000000_00100_00000_00100_00000_001001#32 = .instr (.jalr 4 4) := by decide
theorem test_decode_syscall : decodeWord 0b000000_00000_00000_00000_00000_001100#32 = .instr .syscall := by decide
theorem test_decode_mfhi : decodeWord 0b000000_00000_00000_00010_00000_010000#32 = .instr (.mfhi 2) := by decide
theorem test_decode_mthi : decodeWord 0b000000_00011_00000_00000_00000_010001#32 = .instr (.mthi 3) := by decide
theorem test_decode_mflo : decodeWord 0b000000_00000_00000_00010_00000_010010#32 = .instr (.mflo 2) := by decide
theorem test_decode_mtlo : decodeWord 0b000000_00011_00000_00000_00000_010011#32 = .instr (.mtlo 3) := by decide
theorem test_decode_mult : decodeWord 0b000000_00100_00101_00000_00000_011000#32 = .instr (.mult 4 5) := by decide
theorem test_decode_multu : decodeWord 0b000000_00100_00101_00000_00000_011001#32 = .instr (.multu 4 5) := by decide
theorem test_decode_div : decodeWord 0b000000_00100_00101_00000_00000_011010#32 = .instr (.div 4 5) := by decide
theorem test_decode_divu : decodeWord 0b000000_00100_00101_00000_00000_011011#32 = .instr (.divu 4 5) := by decide
theorem test_decode_add : decodeWord 0b000000_00001_00010_00011_00000_100000#32 = .instr (.add 3 1 2) := by decide
theorem test_decode_addu : decodeWord 0b000000_00001_00010_00011_00000_100001#32 = .instr (.addu 3 1 2) := by decide
theorem test_decode_sub : decodeWord 0b000000_00001_00010_00011_00000_100010#32 = .instr (.sub 3 1 2) := by decide
theorem test_decode_subu : decodeWord 0b000000_00001_00010_00011_00000_100011#32 = .instr (.subu 3 1 2) := by decide
theorem test_decode_and : decodeWord 0b000000_00001_00010_00011_00000_100100#32 = .instr (.and 3 1 2) := by decide
theorem test_decode_or : decodeWord 0b000000_00001_00010_00011_00000_100101#32 = .instr (.or 3 1 2) := by decide
theorem test_decode_xor : decodeWord 0b000000_00001_00010_00011_00000_100110#32 = .instr (.xor 3 1 2) := by decide
theorem test_decode_nor : decodeWord 0b000000_00001_00010_00011_00000_100111#32 = .instr (.nor 3 1 2) := by decide
theorem test_decode_slt : decodeWord 0b000000_00001_00010_00011_00000_101010#32 = .instr (.slt 3 1 2) := by decide
theorem test_decode_sltu : decodeWord 0b000000_00001_00010_00011_00000_101011#32 = .instr (.sltu 3 1 2) := by decide
theorem test_decode_bltz : decodeWord 0b000001_00001_00000_0000000000000100#32 = .instr (.bltz 1 0x0004) := by decide
theorem test_decode_bgez : decodeWord 0b000001_00001_00001_0000000000000100#32 = .instr (.bgez 1 0x0004) := by decide
theorem test_decode_bltzal : decodeWord 0b000001_00001_10000_0000000000000100#32 = .instr (.bltzal 1 0x0004) := by decide
theorem test_decode_bgezal : decodeWord 0b000001_00000_10001_0000000000000100#32 = .instr (.bgezal 0 0x0004) := by decide
theorem test_decode_j : decodeWord 0b000010_11111111111111111111111111#32 = .instr (.j 0x3FFFFFF) := by decide
theorem test_decode_jal : decodeWord 0b000011_00000100000000000100000000#32 = .instr (.jal 0x0100100) := by decide
theorem test_decode_beq : decodeWord 0b000100_00001_00010_0000000000000100#32 = .instr (.beq 1 2 0x0004) := by decide
theorem test_decode_bne : decodeWord 0b000101_00001_00010_1111111111111110#32 = .instr (.bne 1 2 0xFFFE) := by decide
theorem test_decode_blez : decodeWord 0b000110_00001_00000_0000000000000100#32 = .instr (.blez 1 0x0004) := by decide
theorem test_decode_bgtz : decodeWord 0b000111_00001_00000_0000000000000100#32 = .instr (.bgtz 1 0x0004) := by decide
theorem test_decode_addi : decodeWord 0b001000_00001_00010_0000000000000001#32 = .instr (.addi 2 1 0x0001) := by decide
theorem test_decode_addiu : decodeWord 0b001001_00001_00010_1000000000000000#32 = .instr (.addiu 2 1 0x8000) := by decide
theorem test_decode_slti : decodeWord 0b001010_00001_00010_1111111111111111#32 = .instr (.slti 2 1 0xFFFF) := by decide
theorem test_decode_sltiu : decodeWord 0b001011_00001_00010_1111111111111111#32 = .instr (.sltiu 2 1 0xFFFF) := by decide
theorem test_decode_andi : decodeWord 0b001100_00001_00010_1000111100001111#32 = .instr (.andi 2 1 0x8F0F) := by decide
theorem test_decode_ori : decodeWord 0b001101_00001_00010_1000000000000000#32 = .instr (.ori 2 1 0x8000) := by decide
theorem test_decode_xori : decodeWord 0b001110_00001_00010_1111111111111111#32 = .instr (.xori 2 1 0xFFFF) := by decide
theorem test_decode_lui : decodeWord 0b001111_00000_00010_1000000000000001#32 = .instr (.lui 2 0x8001) := by decide
theorem test_decode_lb : decodeWord 0b100000_00001_00010_0000000000000011#32 = .instr (.lb 2 1 0x0003) := by decide
theorem test_decode_lh : decodeWord 0b100001_00001_00010_0000000000000010#32 = .instr (.lh 2 1 0x0002) := by decide
theorem test_decode_lw : decodeWord 0b100011_00001_00010_1111111111111100#32 = .instr (.lw 2 1 0xFFFC) := by decide
theorem test_decode_lbu : decodeWord 0b100100_00001_00010_0000000000000011#32 = .instr (.lbu 2 1 0x0003) := by decide
theorem test_decode_lhu : decodeWord 0b100101_00001_00010_0000000000000010#32 = .instr (.lhu 2 1 0x0002) := by decide
theorem test_decode_sb : decodeWord 0b101000_00001_00010_0000000000000001#32 = .instr (.sb 2 1 0x0001) := by decide
theorem test_decode_sh : decodeWord 0b101001_00001_00010_0000000000000010#32 = .instr (.sh 2 1 0x0002) := by decide
theorem test_decode_sw : decodeWord 0b101011_00001_00010_0000000000000010#32 = .instr (.sw 2 1 0x0002) := by decide

/-- V139, V140: ignored fields (R92). -/
theorem test_decode_ignored_fields : decodeWord 0x00E31100 = .instr (.sll 2 3 4) ∧
    decodeWord 0x008028C8 = .instr (.jr 4) := by
  decide

/-- V26, V27, V63, V90, V135 to V138: words that match no row (R99). -/
theorem test_decode_rejects : decodeWord 0x0000000D = .reject (.unassignedFunct 0x0D) ∧
    decodeWord 0x0000000A = .reject (.unassignedFunct 0x0A) ∧
    decodeWord 0x00221828 = .reject (.unassignedFunct 0x28) ∧
    decodeWord 0x04220004 = .reject (.unassignedRegimm 2) ∧
    decodeWord 0x40000000 = .reject (.unassignedOpcode 0x10) ∧
    decodeWord 0x88220000 = .reject (.unassignedOpcode 0x22) ∧
    decodeWord 0xB8220000 = .reject (.unassignedOpcode 0x2E) ∧
    decodeWord 0xFC000000 = .reject (.unassignedOpcode 0x3F) := by
  decide

/-- R80: every instruction is four bytes. -/
theorem test_decode_truncated : decodeBytes [0, 0, 0] = (.reject .truncated, [0, 0, 0]) := by decide

/-- R64: the word's least significant byte is at the lowest address. -/
theorem test_decode_bytes : decodeBytes [0x00, 0x00, 0x22, 0xAC, 0x07] = (.instr (.sw 2 1 0), [0x07]) := by decide

/-! Whole-machine vectors: S1 to S4, S8 to S10, V91, V138. -/

/-- S1: the zero word at reset is the no-op. -/
theorem test_S1_reset_step : after State.reset (fun t => (t.outcome, t.cur.pc, t.count, t.run)) =
    some (.ok, 0x00400004, 1, true) := by
  decide

/-- S2, S3: an unmapped fetch is the no-op, and the PC wraps. -/
theorem test_S2_unmapped_fetch :
    after (startAt 0x00500000 [] 0xFC000000) (fun t => (t.outcome, t.cur.pc)) = some (.ok, 0x00500004) := by
  decide
theorem test_S3_pc_wraps : after (startAt 0xFFFFFFFC [] 0) (fun t => (t.outcome, t.cur.pc)) = some (.ok, 0) := by
  decide

/-- S4: the error path; R43: the same step while halted. -/
theorem test_S4_unknown : after (start [] 0xFC000000) (fun t => (t.outcome, t.cur.pc, t.run, t.count)) =
    some (.unknownInstruction, 0x00400000, false, 1) := by
  decide
theorem test_S4_while_halted :
    after ((start [] 0xFC000000).hostSetRun false) (fun t => (t.outcome, t.cur.pc, t.run)) =
      some (.unknownInstruction, 0x00400000, false) := by
  decide

/-- S8: lanes are little-endian. -/
theorem test_S8_lanes : let s := State.reset.write32 0x10000000 0x11223344
    s.memRead8 0x10000000 = 0x44 ∧ s.memRead8 0x10000003 = 0x11 ∧ s.memRead16 0x10000000 = 0x3344 ∧
    s.memRead16 0x10000002 = 0x1122 := by
  decide

/-- E2: the last word of TEXT is mapped, the byte past it is not. -/
theorem test_E2_region_end : (State.reset.write32 0x004FFFFC 0xA5A5A5A5).read32 0x004FFFFC = 0xA5A5A5A5 ∧
    (State.reset.write32 0x00500000 1).read32 0x00500000 = 0 := by
  decide

/-- S9, S10: host accesses without an alignment check. -/
theorem test_S9_straddle : State.reset.hostRead32 0x004FFFFE = .refused (.hostAccessPastRegion 0x004FFFFE) := by rfl
theorem test_S10_unaligned_host_read :
    (startData [] 0).hostRead32 0x10000001 = .next 0x448899AA := by
  rfl

/-- R306: word k of the image at TEXT_BASE + 4k. -/
theorem test_loadImage : (State.reset.loadImage [0x20010005, 0x0000000C]).read32 0x00400004 = 0x0000000C := by decide

/-- R307: the run loop does not step while the run flag is false. -/
theorem test_runLoop_halted : runLoop 1 (State.reset.hostSetRun false) = .next (State.reset.hostSetRun false) := by rfl

/-- The opcode table's bits as one number. -/
theorem test_decodeTableWord : decodeTableWord 32 0x8C220004 = some (.lw 2 1 4) ∧ decodeTableWord 32 0xFC000000 = none := by
  decide

/-! One step per vector of spec/95_test_vectors.md, at most two per instruction. -/

/-- V1: sll $2,$3,4. -/
theorem test_sll_V1 :
    after (start [(3, 0x80000001)] 0x00031100) (fun t => (t.outcome, [t.cur.reg 2])) = some (.ok, [0x00000010]) := by
  decide

/-- V16: sll $0,$3,4. -/
theorem test_sll_V16 :
    after (start [(3, 0x00000001)] 0x00030100) (fun t => (t.outcome, [t.cur.reg 0])) = some (.ok, [0x00000010]) := by
  decide

/-- V4: srl $2,$3,4. -/
theorem test_srl_V4 :
    after (start [(3, 0x80000000)] 0x00031102) (fun t => (t.outcome, [t.cur.reg 2])) = some (.ok, [0x08000000]) := by
  decide

/-- V5: srl $2,$3,31. -/
theorem test_srl_V5 :
    after (start [(3, 0xFFFFFFFF)] 0x000317C2) (fun t => (t.outcome, [t.cur.reg 2])) = some (.ok, [0x00000001]) := by
  decide

/-- V6: sra $2,$3,4. -/
theorem test_sra_V6 :
    after (start [(3, 0x80000000)] 0x00031103) (fun t => (t.outcome, [t.cur.reg 2])) = some (.ok, [0xF8000000]) := by
  decide

/-- V7: sra $2,$3,31. -/
theorem test_sra_V7 :
    after (start [(3, 0x7FFFFFFF)] 0x000317C3) (fun t => (t.outcome, [t.cur.reg 2])) = some (.ok, [0x00000000]) := by
  decide

/-- V9: sllv $2,$3,$4. -/
theorem test_sllv_V9 :
    after (start [(3, 0x00000001), (4, 0x00000021)] 0x00831004) (fun t => (t.outcome, [t.cur.reg 2])) = some (.ok, [0x00000002]) := by
  decide

/-- V10: sllv $2,$3,$4. -/
theorem test_sllv_V10 :
    after (start [(3, 0x00000001), (4, 0xFFFFFFFF)] 0x00831004) (fun t => (t.outcome, [t.cur.reg 2])) = some (.ok, [0x80000000]) := by
  decide

/-- V11: srlv $2,$3,$4. -/
theorem test_srlv_V11 :
    after (start [(3, 0xF0000000), (4, 0x00000020)] 0x00831006) (fun t => (t.outcome, [t.cur.reg 2])) = some (.ok, [0xF0000000]) := by
  decide

/-- V12: srlv $2,$3,$4. -/
theorem test_srlv_V12 :
    after (start [(3, 0xF0000000), (4, 0x0000001C)] 0x00831006) (fun t => (t.outcome, [t.cur.reg 2])) = some (.ok, [0x0000000F]) := by
  decide

/-- V13: srav $2,$3,$4. -/
theorem test_srav_V13 :
    after (start [(3, 0xF0000000), (4, 0x0000001C)] 0x00831007) (fun t => (t.outcome, [t.cur.reg 2])) = some (.ok, [0xFFFFFFFF]) := by
  decide

/-- V14: srav $3,$3,$3. -/
theorem test_srav_V14 :
    after (start [(3, 0x80000004)] 0x00631807) (fun t => (t.outcome, [t.cur.reg 3])) = some (.ok, [0xF8000000]) := by
  decide

/-- V18: jr $4. -/
theorem test_jr_V18 :
    after (start [(4, 0x00400102)] 0x00800008) (fun t => (t.outcome, t.run, [t.cur.pc])) = some (.unalignedAddress, false, [0x00400000]) := by
  decide

/-- V19: jr $4. -/
theorem test_jr_V19 :
    after (start [(4, 0x00000000)] 0x00800008) (fun t => (t.outcome, [t.cur.pc])) = some (.ok, [0x00000000]) := by
  decide

/-- V21: jalr $4,$4. -/
theorem test_jalr_V21 :
    after (start [(4, 0x00400200)] 0x00802009) (fun t => (t.outcome, [t.cur.reg 4, t.cur.pc])) = some (.ok, [0x00400004, 0x00400200]) := by
  decide

/-- V22: jalr $31,$4. -/
theorem test_jalr_V22 :
    after (start [(4, 0x00400201), (31, 0x11111111)] 0x0080F809) (fun t => (t.outcome, t.run, [t.cur.reg 31, t.cur.pc])) = some (.unalignedAddress, false, [0x11111111, 0x00400000]) := by
  decide

/-- V24: syscall. -/
theorem test_syscall_V24 :
    after (start [(2, 0x00000007)] 0x0000000C) (fun t => (t.outcome, t.run, [t.cur.reg 2, t.cur.pc])) = some (.ok, false, [0x0000000A, 0x00400004]) := by
  decide

/-- V25: syscall. -/
theorem test_syscall_V25 :
    after (startAt 0x00400010 [(2, 0x0000000A)] 0x0000000C) (fun t => (t.outcome, t.run, [t.cur.pc])) = some (.ok, false, [0x00400014]) := by
  decide

/-- V28: mfhi $2. -/
theorem test_mfhi_V28 :
    after (startHiLo 0xCAFEBABE 0x00000000 0x00001010) (fun t => (t.outcome, [t.cur.reg 2, t.cur.hi, t.cur.lo])) = some (.ok, [0xCAFEBABE, 0xCAFEBABE, 0x00000000]) := by
  decide

/-- V30: mthi $3. -/
theorem test_mthi_V30 :
    after (start [(3, 0xDEADBEEF)] 0x00600011) (fun t => (t.outcome, [t.cur.hi, t.cur.lo])) = some (.ok, [0xDEADBEEF, 0x00000000]) := by
  decide

/-- V29: mflo $2. -/
theorem test_mflo_V29 :
    after (startHiLo 0x00000000 0x12345678 0x00001012) (fun t => (t.outcome, [t.cur.reg 2, t.cur.hi, t.cur.lo])) = some (.ok, [0x12345678, 0x00000000, 0x12345678]) := by
  decide

/-- V31: mtlo $3. -/
theorem test_mtlo_V31 :
    after (start [(3, 0xDEADBEEF)] 0x00600013) (fun t => (t.outcome, [t.cur.hi, t.cur.lo])) = some (.ok, [0x00000000, 0xDEADBEEF]) := by
  decide

/-- V32: mult $4,$5. -/
theorem test_mult_V32 :
    after (start [(4, 0xFFFFFFFF), (5, 0xFFFFFFFF)] 0x00850018) (fun t => (t.outcome, [t.cur.hi, t.cur.lo])) = some (.ok, [0x00000000, 0x00000001]) := by
  decide

/-- V35: mult $4,$5. -/
theorem test_mult_V35 :
    after (start [(4, 0x7FFFFFFF), (5, 0xFFFFFFFE)] 0x00850018) (fun t => (t.outcome, [t.cur.hi, t.cur.lo])) = some (.ok, [0xFFFFFFFF, 0x00000002]) := by
  decide

/-- V33: multu $4,$5. -/
theorem test_multu_V33 :
    after (start [(4, 0xFFFFFFFF), (5, 0xFFFFFFFF)] 0x00850019) (fun t => (t.outcome, [t.cur.hi, t.cur.lo])) = some (.ok, [0xFFFFFFFE, 0x00000001]) := by
  decide

/-- V36: multu $4,$5. -/
theorem test_multu_V36 :
    after (start [(4, 0x80000000), (5, 0x00000002)] 0x00850019) (fun t => (t.outcome, [t.cur.hi, t.cur.lo])) = some (.ok, [0x00000001, 0x00000000]) := by
  decide

/-- V39: div $4,$5. -/
theorem test_div_V39 :
    after (start [(4, 0xFFFFFFF9), (5, 0x00000002)] 0x0085001A) (fun t => (t.outcome, [t.cur.hi, t.cur.lo])) = some (.ok, [0xFFFFFFFF, 0xFFFFFFFD]) := by
  decide

/-- V43: div $4,$5. -/
theorem test_div_V43 :
    stops (start [(4, 0x80000000), (5, 0xFFFFFFFF)] 0x0085001A) = some (.undefinedDivide 0x00400000 0x0085001A) := by
  decide

/-- V46: divu $4,$5. -/
theorem test_divu_V46 :
    after (start [(4, 0x80000000), (5, 0xFFFFFFFF)] 0x0085001B) (fun t => (t.outcome, [t.cur.hi, t.cur.lo])) = some (.ok, [0x80000000, 0x00000000]) := by
  decide

/-- V47: divu $4,$5. -/
theorem test_divu_V47 :
    stops (start [(4, 0x00000005), (5, 0x00000000)] 0x0085001B) = some (.undefinedDivide 0x00400000 0x0085001B) := by
  decide

/-- V49: add $3,$1,$2. -/
theorem test_add_V49 :
    after (start [(1, 0x7FFFFFFF), (2, 0x00000001)] 0x00221820) (fun t => (t.outcome, [t.cur.reg 3])) = some (.ok, [0x80000000]) := by
  decide

/-- V62: add $1,$1,$1. -/
theorem test_add_V62 :
    after (start [(1, 0x40000000)] 0x00210820) (fun t => (t.outcome, [t.cur.reg 1])) = some (.ok, [0x80000000]) := by
  decide

/-- V50: addu $3,$1,$2. -/
theorem test_addu_V50 :
    after (start [(1, 0xFFFFFFFF), (2, 0x00000001)] 0x00221821) (fun t => (t.outcome, [t.cur.reg 3])) = some (.ok, [0x00000000]) := by
  decide

/-- V51: sub $3,$1,$2. -/
theorem test_sub_V51 :
    after (start [(1, 0x80000000), (2, 0x00000001)] 0x00221822) (fun t => (t.outcome, [t.cur.reg 3])) = some (.ok, [0x7FFFFFFF]) := by
  decide

/-- V52: subu $3,$1,$2. -/
theorem test_subu_V52 :
    after (start [(1, 0x00000000), (2, 0x00000001)] 0x00221823) (fun t => (t.outcome, [t.cur.reg 3])) = some (.ok, [0xFFFFFFFF]) := by
  decide

/-- V53: and $3,$1,$2. -/
theorem test_and_V53 :
    after (start [(1, 0xFF00FF00), (2, 0x0FF00FF0)] 0x00221824) (fun t => (t.outcome, [t.cur.reg 3])) = some (.ok, [0x0F000F00]) := by
  decide

/-- V54: or $3,$1,$2. -/
theorem test_or_V54 :
    after (start [(1, 0xFF00FF00), (2, 0x0FF00FF0)] 0x00221825) (fun t => (t.outcome, [t.cur.reg 3])) = some (.ok, [0xFFF0FFF0]) := by
  decide

/-- V55: xor $3,$1,$2. -/
theorem test_xor_V55 :
    after (start [(1, 0xFF00FF00), (2, 0x0FF00FF0)] 0x00221826) (fun t => (t.outcome, [t.cur.reg 3])) = some (.ok, [0xF0F0F0F0]) := by
  decide

/-- V56: nor $3,$1,$2. -/
theorem test_nor_V56 :
    after (start [(1, 0xFF00FF00), (2, 0x0FF00FF0)] 0x00221827) (fun t => (t.outcome, [t.cur.reg 3])) = some (.ok, [0x000F000F]) := by
  decide

/-- V58: slt $3,$1,$2. -/
theorem test_slt_V58 :
    after (start [(1, 0xFFFFFFFF), (2, 0x00000001)] 0x0022182A) (fun t => (t.outcome, [t.cur.reg 3])) = some (.ok, [0x00000001]) := by
  decide

/-- V60: slt $3,$1,$1. -/
theorem test_slt_V60 :
    after (start [(1, 0x00000005)] 0x0021182A) (fun t => (t.outcome, [t.cur.reg 3])) = some (.ok, [0x00000000]) := by
  decide

/-- V59: sltu $3,$1,$2. -/
theorem test_sltu_V59 :
    after (start [(1, 0xFFFFFFFF), (2, 0x00000001)] 0x0022182B) (fun t => (t.outcome, [t.cur.reg 3])) = some (.ok, [0x00000000]) := by
  decide

/-- V61: sltu $3,$0,$2. -/
theorem test_sltu_V61 :
    after (start [(2, 0x00000001)] 0x0002182B) (fun t => (t.outcome, [t.cur.reg 3])) = some (.ok, [0x00000001]) := by
  decide

/-- V80: bltz $1,+4. -/
theorem test_bltz_V80 :
    after (start [(1, 0xFFFFFFFF)] 0x04200004) (fun t => (t.outcome, [t.cur.pc])) = some (.ok, [0x00400014]) := by
  decide

/-- V81: bltz $1,+4. -/
theorem test_bltz_V81 :
    after (start [(1, 0x00000000)] 0x04200004) (fun t => (t.outcome, [t.cur.pc])) = some (.ok, [0x00400004]) := by
  decide

/-- V83: bgez $1,+4. -/
theorem test_bgez_V83 :
    after (start [(1, 0x80000000)] 0x04210004) (fun t => (t.outcome, [t.cur.pc])) = some (.ok, [0x00400004]) := by
  decide

/-- V88: bgez $1,-32768. -/
theorem test_bgez_V88 :
    after (start [] 0x04218000) (fun t => (t.outcome, [t.cur.pc])) = some (.ok, [0x003E0004]) := by
  decide

/-- V84: bltzal $1,+4. -/
theorem test_bltzal_V84 :
    after (start [(1, 0x00000001)] 0x04300004) (fun t => (t.outcome, [t.cur.reg 31, t.cur.pc])) = some (.ok, [0x00400004, 0x00400004]) := by
  decide

/-- V85: bltzal $1,+4. -/
theorem test_bltzal_V85 :
    after (start [(1, 0xFFFFFFFF)] 0x04300004) (fun t => (t.outcome, [t.cur.reg 31, t.cur.pc])) = some (.ok, [0x00400004, 0x00400014]) := by
  decide

/-- V86: bgezal $0,+4. -/
theorem test_bgezal_V86 :
    after (start [] 0x04110004) (fun t => (t.outcome, [t.cur.reg 31, t.cur.pc])) = some (.ok, [0x00400004, 0x00400014]) := by
  decide

/-- V87: bgezal $31,+4. -/
theorem test_bgezal_V87 :
    after (start [(31, 0x80000000)] 0x07F10004) (fun t => (t.outcome, [t.cur.reg 31, t.cur.pc])) = some (.ok, [0x00400004, 0x00400004]) := by
  decide

/-- V67: j 0x0FFFFFFC. -/
theorem test_j_V67 :
    after (start [] 0x0BFFFFFF) (fun t => (t.outcome, [t.cur.pc])) = some (.ok, [0x0FFFFFFC]) := by
  decide

/-- V69: j target 0x100 from KTEXT. -/
theorem test_j_V69 :
    after (startAt 0x80000010 [] 0x08000100) (fun t => (t.outcome, [t.cur.pc])) = some (.ok, [0x80000400]) := by
  decide

/-- V65: jal 0x00400400. -/
theorem test_jal_V65 :
    after (startAt 0x00400028 [] 0x0C100100) (fun t => (t.outcome, [t.cur.reg 31, t.cur.pc])) = some (.ok, [0x0040002C, 0x00400400]) := by
  decide

/-- V66: jal target 0x100 (source §8). -/
theorem test_jal_V66 :
    after (startAt 0x00400028 [] 0x0C000100) (fun t => (t.outcome, [t.cur.reg 31, t.cur.pc])) = some (.ok, [0x0040002C, 0x00000400]) := by
  decide

/-- V70: beq $1,$2,+4. -/
theorem test_beq_V70 :
    after (start [(1, 0x00000005), (2, 0x00000005)] 0x10220004) (fun t => (t.outcome, [t.cur.pc])) = some (.ok, [0x00400014]) := by
  decide

/-- V72: beq $0,$0,-1. -/
theorem test_beq_V72 :
    after (start [] 0x1000FFFF) (fun t => (t.outcome, [t.cur.pc])) = some (.ok, [0x00400000]) := by
  decide

/-- V73: bne $1,$2,-2. -/
theorem test_bne_V73 :
    after (start [(1, 0x00000005), (2, 0x00000006)] 0x1422FFFE) (fun t => (t.outcome, [t.cur.pc])) = some (.ok, [0x003FFFFC]) := by
  decide

/-- V74: bne $1,$1,-2. -/
theorem test_bne_V74 :
    after (start [(1, 0x00000005)] 0x1421FFFE) (fun t => (t.outcome, [t.cur.pc])) = some (.ok, [0x00400004]) := by
  decide

/-- V76: blez $1,+4. -/
theorem test_blez_V76 :
    after (start [(1, 0x80000000)] 0x18200004) (fun t => (t.outcome, [t.cur.pc])) = some (.ok, [0x00400014]) := by
  decide

/-- V77: blez $1,+4. -/
theorem test_blez_V77 :
    after (start [(1, 0x00000001)] 0x18200004) (fun t => (t.outcome, [t.cur.pc])) = some (.ok, [0x00400004]) := by
  decide

/-- V78: bgtz $1,+4. -/
theorem test_bgtz_V78 :
    after (start [(1, 0x00000001)] 0x1C200004) (fun t => (t.outcome, [t.cur.pc])) = some (.ok, [0x00400014]) := by
  decide

/-- V79: bgtz $1,+4. -/
theorem test_bgtz_V79 :
    after (start [(1, 0x80000000)] 0x1C200004) (fun t => (t.outcome, [t.cur.pc])) = some (.ok, [0x00400004]) := by
  decide

/-- V93: addi $2,$1,1. -/
theorem test_addi_V93 :
    after (start [(1, 0x7FFFFFFF)] 0x20220001) (fun t => (t.outcome, [t.cur.reg 2])) = some (.ok, [0x80000000]) := by
  decide

/-- V107: addi $0,$0,5. -/
theorem test_addi_V107 :
    after (start [] 0x20000005) (fun t => (t.outcome, [t.cur.reg 0])) = some (.ok, [0x00000005]) := by
  decide

/-- V95: addiu $2,$1,0x8000. -/
theorem test_addiu_V95 :
    after (start [(1, 0x00010000)] 0x24228000) (fun t => (t.outcome, [t.cur.reg 2])) = some (.ok, [0x00008000]) := by
  decide

/-- V96: slti $2,$1,-1. -/
theorem test_slti_V96 :
    after (start [(1, 0xFFFFFFFE)] 0x2822FFFF) (fun t => (t.outcome, [t.cur.reg 2])) = some (.ok, [0x00000001]) := by
  decide

/-- V98: slti $2,$1,-32768. -/
theorem test_slti_V98 :
    after (start [(1, 0x80000000)] 0x28228000) (fun t => (t.outcome, [t.cur.reg 2])) = some (.ok, [0x00000001]) := by
  decide

/-- V99: sltiu $2,$1,-1. -/
theorem test_sltiu_V99 :
    after (start [(1, 0x7FFFFFFF)] 0x2C22FFFF) (fun t => (t.outcome, [t.cur.reg 2])) = some (.ok, [0x00000001]) := by
  decide

/-- V100: sltiu $2,$1,-1. -/
theorem test_sltiu_V100 :
    after (start [(1, 0xFFFFFFFF)] 0x2C22FFFF) (fun t => (t.outcome, [t.cur.reg 2])) = some (.ok, [0x00000000]) := by
  decide

/-- V102: andi $2,$1,0x8F0F. -/
theorem test_andi_V102 :
    after (start [(1, 0xFFFFFFFF)] 0x30228F0F) (fun t => (t.outcome, [t.cur.reg 2])) = some (.ok, [0x00008F0F]) := by
  decide

/-- V103: ori $2,$1,0x8000. -/
theorem test_ori_V103 :
    after (start [(1, 0x12340000)] 0x34228000) (fun t => (t.outcome, [t.cur.reg 2])) = some (.ok, [0x12348000]) := by
  decide

/-- V104: xori $2,$1,0xFFFF. -/
theorem test_xori_V104 :
    after (start [(1, 0xFFFF0000)] 0x3822FFFF) (fun t => (t.outcome, [t.cur.reg 2])) = some (.ok, [0xFFFFFFFF]) := by
  decide

/-- V105: lui $2,0x8001. -/
theorem test_lui_V105 :
    after (start [(2, 0x00001234)] 0x3C028001) (fun t => (t.outcome, [t.cur.reg 2])) = some (.ok, [0x80010000]) := by
  decide

/-- V106: lui $2,0 with rs=5. -/
theorem test_lui_V106 :
    after (start [(2, 0xFFFFFFFF), (5, 0x00000007)] 0x3CA20000) (fun t => (t.outcome, [t.cur.reg 2])) = some (.ok, [0x00000000]) := by
  decide

/-- V109: lb $2,3($1). -/
theorem test_lb_V109 :
    after (startData [(1, 0x10000000)] 0x80220003) (fun t => (t.outcome, [t.cur.reg 2])) = some (.ok, [0xFFFFFF88]) := by
  decide

/-- V110: lb $2,4($1). -/
theorem test_lb_V110 :
    after (startData [(1, 0x10000000)] 0x80220004) (fun t => (t.outcome, [t.cur.reg 2])) = some (.ok, [0x00000044]) := by
  decide

/-- V114: lh $2,2($1). -/
theorem test_lh_V114 :
    after (startData [(1, 0x10000000)] 0x84220002) (fun t => (t.outcome, [t.cur.reg 2])) = some (.ok, [0xFFFF8899]) := by
  decide

/-- V115: lh $2,1($1). -/
theorem test_lh_V115 :
    after (startData [(1, 0x10000000)] 0x84220001) (fun t => (t.outcome, t.run, [t.cur.reg 2, t.cur.pc])) = some (.unalignedAddress, false, [0x00000000, 0x00400000]) := by
  decide

/-- V119: lw $2,-4($1). -/
theorem test_lw_V119 :
    after (startData [(1, 0x10000004)] 0x8C22FFFC) (fun t => (t.outcome, [t.cur.reg 2])) = some (.ok, [0x8899AABB]) := by
  decide

/-- V123: lw $2,-4($1) (address 0x0FFFFFFC, unmapped). -/
theorem test_lw_V123 :
    after (startData [(1, 0x10000000), (2, 0x00000055)] 0x8C22FFFC) (fun t => (t.outcome, [t.cur.reg 2])) = some (.ok, [0x00000000]) := by
  decide

/-- V111: lbu $2,3($1). -/
theorem test_lbu_V111 :
    after (startData [(1, 0x10000000)] 0x90220003) (fun t => (t.outcome, [t.cur.reg 2])) = some (.ok, [0x00000088]) := by
  decide

/-- V112: lbu $2,5($1). -/
theorem test_lbu_V112 :
    after (startData [(1, 0x10000000)] 0x90220005) (fun t => (t.outcome, [t.cur.reg 2])) = some (.ok, [0x00000033]) := by
  decide

/-- V116: lhu $2,2($1). -/
theorem test_lhu_V116 :
    after (startData [(1, 0x10000000)] 0x94220002) (fun t => (t.outcome, [t.cur.reg 2])) = some (.ok, [0x00008899]) := by
  decide

/-- V117: lhu $2,3($1). -/
theorem test_lhu_V117 :
    after (startData [(1, 0x10000000)] 0x94220003) (fun t => (t.outcome, t.run, [t.cur.reg 2, t.cur.pc])) = some (.unalignedAddress, false, [0x00000000, 0x00400000]) := by
  decide

/-- V125: sb $2,1($1). -/
theorem test_sb_V125 :
    after (startData [(1, 0x10000000), (2, 0x123456EE)] 0xA0220001) (fun t => (t.outcome, [t.read32 0x10000000])) = some (.ok, [0x8899EEBB]) := by
  decide

/-- V126: sb $2,3($1). -/
theorem test_sb_V126 :
    after (startData [(1, 0x10000000), (2, 0x123456EE)] 0xA0220003) (fun t => (t.outcome, [t.read32 0x10000000])) = some (.ok, [0xEE99AABB]) := by
  decide

/-- V128: sh $2,2($1). -/
theorem test_sh_V128 :
    after (startData [(1, 0x10000000), (2, 0x1234CDEF)] 0xA4220002) (fun t => (t.outcome, [t.read32 0x10000000])) = some (.ok, [0xCDEFAABB]) := by
  decide

/-- V129: sh $2,1($1). -/
theorem test_sh_V129 :
    after (startData [(1, 0x10000000), (2, 0x1234CDEF)] 0xA4220001) (fun t => (t.outcome, t.run, [t.read32 0x10000000, t.cur.pc])) = some (.unalignedAddress, false, [0x8899AABB, 0x00400000]) := by
  decide

/-- V131: sw $2,2($1). -/
theorem test_sw_V131 :
    after (startData [(1, 0x10000000), (2, 0xCAFEBABE)] 0xAC220002) (fun t => (t.outcome, t.run, [t.read32 0x10000000, t.cur.pc])) = some (.unalignedAddress, false, [0x8899AABB, 0x00400000]) := by
  decide

/-- V132: sw $0,0($1). -/
theorem test_sw_V132 :
    after (startData [(1, 0x10000000)] 0xAC200000) (fun t => (t.outcome, [t.read32 0x10000000])) = some (.ok, [0x00000000]) := by
  decide

/-! Witnesses: the hypotheses of the obligations can be met. -/

/-- The words of the decode tests meet the hypotheses of every DecodesSpecial, DecodesRegimm and DecodesOpcode. -/
def specialWords : List Word :=
    [0x00031100, 0x00031102, 0x00031103, 0x00831004, 0x00831006, 0x00831007, 0x00800008, 0x00802009, 0x0000000C, 0x00001010,
      0x00600011, 0x00001012, 0x00600013, 0x00850018, 0x00850019, 0x0085001A, 0x0085001B, 0x00221820, 0x00221821, 0x00221822,
      0x00221823, 0x00221824, 0x00221825, 0x00221826, 0x00221827, 0x0022182A, 0x0022182B]

def regimmWords : List Word :=
    [0x04200004, 0x04210004, 0x04300004, 0x04110004]

def opcodeWords : List Word :=
    [0x0BFFFFFF, 0x0C100100, 0x10220004, 0x1422FFFE, 0x18200004, 0x1C200004, 0x20220001, 0x24228000, 0x2822FFFF, 0x2C22FFFF,
      0x30228F0F, 0x34228000, 0x3822FFFF, 0x3C028001, 0x80220003, 0x84220002, 0x8C22FFFC, 0x90220003, 0x94220002, 0xA0220001,
      0xA4220002, 0xAC220002]

theorem test_witness_DecodesSpecial : (specialWords.all fun w => w.extractLsb' 26 6 == 0x00#6) = true ∧
    specialWords.map (fun w => (w.extractLsb' 0 6).toNat) =
    [0x00, 0x02, 0x03, 0x04, 0x06, 0x07, 0x08, 0x09, 0x0C, 0x10, 0x11, 0x12, 0x13, 0x18,
      0x19, 0x1A, 0x1B, 0x20, 0x21, 0x22, 0x23, 0x24, 0x25, 0x26, 0x27, 0x2A, 0x2B] := by
  decide

theorem test_witness_DecodesRegimm : (regimmWords.all fun w => w.extractLsb' 26 6 == 0x01#6) = true ∧
    regimmWords.map (fun w => (w.extractLsb' 16 5).toNat) =
    [0x00, 0x01, 0x10, 0x11] := by
  decide

theorem test_witness_DecodesOpcode : opcodeWords.map (fun w => (w.extractLsb' 26 6).toNat) =
    [0x02, 0x03, 0x04, 0x05, 0x06, 0x07, 0x08, 0x09, 0x0A, 0x0B, 0x0C, 0x0D, 0x0E, 0x0F,
      0x20, 0x21, 0x23, 0x24, 0x25, 0x28, 0x29, 0x2B] := by
  decide

theorem test_witness_EncodedInstructionDecodesBack : (Instr.sw 31 0 0xFFFF).wellFormed = true ∧
    decodeBytes (encodeBytes (.sw 31 0 0xFFFF) ++ [1]) = (.instr (.sw 31 0 0xFFFF), [1]) := by
  decide

theorem test_witness_IgnoredFieldsDoNotMatter : decodeWord 0x00800008 = .instr (.jr 4) ∧
    decodeWord (0x00800008 ^^^ (0xFFFFFFFF &&& (Instr.jr 4).ignoredBits)) = .instr (.jr 4) := by
  decide

/-- The fetched word decodes and the step commits (S1); so does a fault (V44). -/
theorem test_witness_StepRunsTheDecodedInstruction : State.reset.fetched = .instr (.sll 0 0 0) ∧
    (Instr.sll 0 0 0).wellFormed = true ∧ (start [] 0x0085001A).fetched = .instr (.div 4 5) := by
  decide

theorem reset_inv : State.reset.Inv := by
  refine ⟨?_, ?_, ?_, ?_, ?_⟩ <;> decide

theorem test_witness_EveryStepKeepsTheInvariant : State.reset.Inv ∧ ∃ t, step State.reset = .next t :=
  ⟨reset_inv, _, rfl⟩

/-- The smallest map: every region empty, TEXT at the very end of the space (log 10). -/
theorem test_witness_ResetMeetsTheInvariant :
    RegionMap.wellFormed ⟨⟨0x100000000, 0⟩, ⟨0, 0⟩, ⟨0, 0⟩, ⟨0, 0⟩, ⟨0, 0⟩⟩ = true := by
  decide

theorem test_witness_EveryStepCommitsAndCounts : ∃ t, step (start [] 0xFC000000) = .next t ∧ t.outcome ≠ .ok :=
  ⟨_, rfl, by decide⟩

theorem test_witness_UnknownWordHaltsAtItsAddress :
    matchingRows ((start [] 0xFC000000).read32 0x00400000) = [] ∧
    ∃ t, step (start [] 0xFC000000) = .next t ∧ t.outcome = .unknownInstruction :=
  ⟨by decide, _, rfl, by decide⟩

/-- The state fetches this instruction, and its address or target is misaligned. -/
def FetchesMisaligned (s : State) (i : Instr) : Prop :=
  s.fetched = .instr i ∧ misaligned s.curZeroed.reg i

/-- Each alignment of R272 violated, at the offset next to an aligned one: V18, V115, V117, V120, V129, V131, V22. -/
theorem test_witness_UnalignedAddressIsRaisedExactly :
    FetchesMisaligned (start [(4, 0x00400102)] 0x00800008) (.jr 4) ∧
    FetchesMisaligned (start [(4, 0x00400201)] 0x0080F809) (.jalr 31 4) ∧
    FetchesMisaligned (start [(1, 0x10000000)] 0x84220001) (.lh 2 1 1) ∧
    FetchesMisaligned (start [(1, 0x10000000)] 0x94220003) (.lhu 2 1 3) ∧
    FetchesMisaligned (start [(1, 0x10000000)] 0x8C220002) (.lw 2 1 2) ∧
    FetchesMisaligned (start [(1, 0x10000000)] 0xA4220001) (.sh 2 1 1) ∧
    FetchesMisaligned (start [(1, 0x10000000)] 0xAC220002) (.sw 2 1 2) := by
  unfold FetchesMisaligned misaligned
  decide

theorem test_witness_UnalignedAddress_outcome :
    ∃ t, step (start [(1, 0x10000000)] 0x8C220002) = .next t ∧ t.outcome = .unalignedAddress :=
  ⟨_, rfl, by decide⟩

theorem test_witness_ArithmeticOverflowIsNeverProduced :
    ∃ t, step (start [(1, 0x7FFFFFFF), (2, 1)] 0x00221820) = .next t :=
  ⟨_, rfl⟩

/-- The state fetches this divide, and it is one of those of R276. -/
def FetchesDivide (s : State) (i : Instr) : Prop :=
  s.fetched = .instr i ∧ undefinedDivide s.curZeroed.reg i

/-- V43, V44, V47 fault; S1 and V42 (0x80000000 by 1) do not. -/
theorem test_witness_UndefinedDivideIsTheOnlyStop :
    FetchesDivide (start [(4, 0x80000000), (5, 0xFFFFFFFF)] 0x0085001A) (.div 4 5) ∧
    FetchesDivide (start [(4, 5)] 0x0085001A) (.div 4 5) ∧ FetchesDivide (start [(4, 5)] 0x0085001B) (.divu 4 5) ∧
    ∀ i, (start [(4, 0x80000000), (5, 1)] 0x0085001A).fetched = .instr i →
      ¬ undefinedDivide (start [(4, 0x80000000), (5, 1)] 0x0085001A).curZeroed.reg i := by
  refine ⟨?_, ?_, ?_, ?_⟩
  · unfold FetchesDivide undefinedDivide; decide
  · unfold FetchesDivide undefinedDivide; decide
  · unfold FetchesDivide undefinedDivide; decide
  · intro i h
    have hi : Decoded.instr (.div 4 5) = .instr i := h
    cases hi
    unfold undefinedDivide
    decide

theorem test_witness_RunFlagFallsOnlyByErrorOrSyscall :
    (∃ t, step State.reset = .next t ∧ t.run = true) ∧ ∃ t, step (start [] 0x0000000C) = .next t ∧ t.run = false :=
  ⟨⟨_, rfl, by decide⟩, _, rfl, by decide⟩

/-- Two states a step cannot tell apart: register 0, `nxt`, the run flag and the counter differ (R21, R31, R43). -/
def twin (s : State) : State :=
  { s with cur := s.cur.setReg 0 5, nxt := { s.nxt with hi := 9 }, run := false, count := 7 }

theorem test_witness_StepReadsOnlyCommittedStateAndMemory :
    State.reset ≠ twin State.reset ∧ State.reset.curZeroed = (twin State.reset).curZeroed ∧
    State.reset.map = (twin State.reset).map ∧ State.reset.mem = (twin State.reset).mem ∧
    (∃ t, step State.reset = .next t) ∧
    (start [] 0x0085001A).curZeroed = (twin (start [] 0x0085001A)).curZeroed ∧
    ∃ f, step (start [] 0x0085001A) = .fault f :=
  ⟨by decide, by decide, by decide, by decide, ⟨_, rfl⟩, by decide, _, rfl⟩

theorem test_witness_ErrorStepRepeatsItself :
    ∃ t, step (start [(4, 0x00400102)] 0x00800008) = .next t ∧ t.outcome ≠ .ok :=
  ⟨_, rfl, by decide⟩

/-- The first unmapped address above TEXT, and the last of the space. -/
theorem test_witness_UnmappedFetchIsANoOp :
    (startAt 0x00500000 [] 0).map.mapped (startAt 0x00500000 [] 0).cur.pc.toNat = false ∧
    (startAt 0xFFFFFFFC [] 0).map.mapped (startAt 0xFFFFFFFC [] 0).cur.pc.toNat = false := by
  decide

/-- `sw $2,4($1)` with the PC in `$1`. -/
theorem test_witness_StoredWordIsFetchedNext : let s := start [(1, 0x00400000), (2, 0x00031100)] 0xAC220004
    s.mem.wf = true ∧ s.fetched = .instr (.sw 2 1 4) ∧
    s.curZeroed.reg 1 + (0x0004#16).signExtend 32 = s.cur.pc + 4 ∧ (s.cur.pc + 4).extractLsb' 0 2 = 0#2 ∧
    s.map.mapped (s.cur.pc + 4).toNat = true := by
  decide

theorem test_witness_OnlyNamedStateChanges : (∃ t, exec (.mfhi 2) State.reset.beginStep = .next t) ∧
    (∃ t, exec (.mthi 2) State.reset.beginStep = .next t) ∧ (∃ t, exec (.sb 2 1 0) State.reset.beginStep = .next t) ∧
    writesHi (.mfhi 2) = false ∧ writesLo (.mthi 2) = false ∧ isStore (.mfhi 2) = false :=
  ⟨⟨_, rfl⟩, ⟨_, rfl⟩, ⟨_, rfl⟩, rfl, rfl, rfl⟩

/-- The first and the last byte of TEXT are mapped, their neighbours are not. -/
theorem test_witness_WordAccessFollowsTheRegions : State.reset.mem.wf = true ∧
    Config.defaultMap.mapped 0x003FFFFF = false ∧ Config.defaultMap.mapped 0x00400000 = true ∧
    Config.defaultMap.mapped 0x004FFFFF = true ∧ Config.defaultMap.mapped 0x00500000 = false := by
  decide

/-- A mapped and an unmapped address, and two neighbours. -/
theorem test_witness_WordWriteThenRead : (startData [] 0).mem.wf = true ∧
    (0x004FFFFC#32).extractLsb' 0 2 = 0#2 ∧ (0x00500000#32).extractLsb' 0 2 = 0#2 ∧ 0x00500000#32 ≠ 0x004FFFFC#32 := by
  decide

theorem test_witness_LanesAreLittleEndian : (startData [] 0).mem.wf = true ∧ (0x004FFFFC#32).extractLsb' 0 2 = 0#2 ∧
    Config.defaultMap.mapped (0x004FFFFC#32).toNat = true := by
  decide

/-- One byte too far, and the last word that fits. -/
theorem test_witness_HostAccessPastRegionIsRefused : State.reset.map.wellFormed = true ∧
    (∃ r ∈ State.reset.map.regions, r.base ≤ (0x004FFFFD#32).toNat ∧ (0x004FFFFD#32).toNat < r.base + r.size ∧
      r.base + r.size < (0x004FFFFD#32).toNat + 4) ∧
    (¬ ∃ r ∈ State.reset.map.regions, r.base ≤ (0x004FFFFC#32).toNat ∧ (0x004FFFFC#32).toNat < r.base + r.size ∧
      r.base + r.size < (0x004FFFFC#32).toNat + 4) ∧ (0x004FFFFC#32).extractLsb' 0 2 = 0#2 := by
  decide

theorem test_witness_HostOperationsKeepTheInvariant : State.reset.Inv ∧
    ∃ t, State.reset.hostWrite32 0x10000001 0x11223344 = .next t :=
  ⟨reset_inv, _, rfl⟩

/-- An image that fills TEXT to its last word, and a byte on each side of it. -/
theorem test_witness_LoadedImageIsInPlace : let s := State.resetWith (textMap 0x00400000 8)
    s.map.wellFormed = true ∧ s.mem.wf = true ∧ 4 * [0x20010005#32, 0x0000000C#32].length ≤ s.map.text.size ∧
    1 < [0x20010005#32, 0x0000000C#32].length ∧ 0x003FFFFF < s.map.text.base ∧
    s.map.text.base + 4 * [0x20010005#32, 0x0000000C#32].length ≤ 0x00400008 := by
  decide

/-- JR and JALR: an aligned target and the three misaligned ones. -/
theorem test_witness_JumpRegister : ((start [(4, 0x00400100)] 0).cur.reg 4).extractLsb' 0 2 = 0#2 ∧
    ((start [(4, 0x00400101)] 0).cur.reg 4).extractLsb' 0 2 ≠ 0#2 ∧
    ((start [(4, 0x00400102)] 0).cur.reg 4).extractLsb' 0 2 ≠ 0#2 ∧
    ((start [(4, 0x00400103)] 0).cur.reg 4).extractLsb' 0 2 ≠ 0#2 := by
  decide

/-- DIV: an ordinary divide, both fault cases, and the two neighbours of the second. -/
theorem test_witness_SignedDivideTruncates : let s := start [(1, 0x80000000), (2, 0xFFFFFFFF), (3, 0x80000001), (4, 1)] 0
    s.cur.reg 0 = 0 ∧ (s.cur.reg 1 = 0x80000000#32 ∧ s.cur.reg 2 = 0xFFFFFFFF#32) ∧
    (s.cur.reg 2 ≠ 0 ∧ ¬ (s.cur.reg 3 = 0x80000000#32 ∧ s.cur.reg 2 = 0xFFFFFFFF#32)) ∧
    (s.cur.reg 4 ≠ 0 ∧ ¬ (s.cur.reg 1 = 0x80000000#32 ∧ s.cur.reg 4 = 0xFFFFFFFF#32)) := by
  decide

theorem test_witness_UnsignedDivide : (start [(4, 1)] 0).cur.reg 4 ≠ 0 ∧ (start [(4, 1)] 0).cur.reg 5 = 0 := by decide

/-- Loads and stores: a byte at the last address of a region; halfwords and words aligned and not. -/
theorem test_witness_LoadsAndStores : let s := startData [(1, 0x10000004)] 0
    s.map.wellFormed = true ∧ s.mem.wf = true ∧
    (eaOf s 1 0xFFFE).extractLsb' 0 1 = 0#1 ∧ (eaOf s 1 0xFFFF).extractLsb' 0 1 ≠ 0#1 ∧
    (eaOf s 1 0xFFFC).extractLsb' 0 2 = 0#2 ∧ (eaOf s 1 0xFFFD).extractLsb' 0 2 ≠ 0#2 ∧
    (eaOf s 1 0xFFFE).extractLsb' 0 2 ≠ 0#2 ∧ (eaOf s 1 0xFFFF).extractLsb' 0 2 ≠ 0#2 := by
  decide

end Sys2Proof.Tests
end

section
/-! SUPPORT. The invariant of committed states under the host's operations (R10, R306). A write keeps memory inside the
regions as soon as the four bytes of a mapped address are mapped together, which holds of an aligned address and of one
that is not refused as running past a region's end. -/

namespace Sys2Proof.Machine

/-! Memory inside the regions. -/

theorem Memory.inside_iff (m : Memory) (map : RegionMap) :
    m.inside map = true ↔ ∀ c ∈ m, map.mapped c.1 = true :=
  List.all_eq_true

/-- Writing a word whose four addresses are mapped keeps memory inside the regions. -/
theorem Memory.setWord_inside {m : Memory} {map : RegionMap} {a : Nat} (v : Word) (h : m.inside map = true)
    (hw : ∀ k < 4, map.mapped (a + k) = true) : (m.setWord a v).inside map = true := by
  rw [Memory.inside_iff] at h ⊢
  intro c hc
  rcases Memory.mem_setWord hc with ⟨hlo, hhi⟩ | hold
  · have hk := hw (c.1 - a) (by omega)
    rwa [Nat.add_sub_cancel' hlo] at hk
  · exact h c hold

/-- A mapped address whose four bytes do not run past its region's end has all four mapped (R65). -/
theorem mapped_add_of_not_pastEnd {m : RegionMap} {a k : Nat} (hend : m.pastEnd a = false) (ha : m.mapped a = true)
    (hk : k < 4) : m.mapped (a + k) = true := by
  obtain ⟨r, hr⟩ := Option.isSome_iff_exists.1 ha
  have hmem : r ∈ m.regions := List.mem_of_find?_eq_some hr
  have hin : r.contains a = true := List.find?_some (p := (Region.contains · a)) hr
  simp only [RegionMap.pastEnd, hr, decide_eq_false_iff_not] at hend
  simp only [Region.contains, Bool.and_eq_true, decide_eq_true_eq] at hin
  exact (mapped_iff m (a + k)).2 ⟨r, hmem, by omega, by omega⟩

/-! The host's operations. -/

/-- The host's `write32` completes exactly where the access does not run past a region's end, as `write32`. -/
theorem State.hostWrite32_eq_next_iff {s t : State} {a v : Word} :
    s.hostWrite32 a v = .next t ↔ s.map.pastEnd a.toNat = false ∧ s.write32 a v = t := by
  unfold State.hostWrite32
  cases s.map.pastEnd a.toNat <;> simp

/-- Only the map, the memory and the two buffers matter to the invariant, so the run flag does not. -/
theorem State.hostSetRun_inv {s : State} (b : Bool) (h : s.Inv) : (s.hostSetRun b).Inv :=
  h

/-- `write32` keeps the invariant if the four bytes at a mapped address are mapped together. -/
theorem State.write32_inv {s : State} {a : Word} (v : Word) (h : s.Inv)
    (hw : s.map.mapped a.toNat = true → ∀ k < 4, s.map.mapped (a.toNat + k) = true) : (s.write32 a v).Inv := by
  obtain ⟨hmap, hwf, hin, hpc, hnxt⟩ := h
  have hin' : (s.write32 a v).mem.inside s.map = true := by
    rw [State.write32_mem]
    split
    next hm => exact Memory.setWord_inside v hin (hw hm)
    next => exact hin
  exact ⟨by simpa using hmap, State.write32_wf a v hwf, by simpa using hin', by simpa using hpc, by simpa using hnxt⟩

/-- At an aligned address, as every store of a step and every word of the loader writes it, nothing more is needed. -/
theorem State.write32_inv_of_aligned {s : State} {a : Word} (v : Word) (h : s.Inv) (ha : aligned4 a = true) :
    (s.write32 a v).Inv :=
  State.write32_inv v h fun hm _ hk => (mapped_lane h.1 ((aligned4_iff a).1 ha) hk).trans hm

/-- The host's `write32` keeps the invariant wherever it is not refused, at unaligned addresses too. -/
theorem State.hostWrite32_inv {s t : State} {a v : Word} (h : s.Inv) (ht : s.hostWrite32 a v = .next t) : t.Inv := by
  obtain ⟨hend, rfl⟩ := State.hostWrite32_eq_next_iff.1 ht
  exact State.write32_inv v h fun hm _ hk => mapped_add_of_not_pastEnd hend hm hk

/-- The loader's words from an aligned address on keep the invariant, also those past the end of TEXT (R306). -/
theorem State.loadFrom_inv : ∀ (ws : List Word) {s : State} {a : Word}, s.Inv → aligned4 a = true →
    (s.loadFrom a ws).Inv
  | [], _, _, h, _ => h
  | w :: ws, _, _, h, ha => State.loadFrom_inv ws (State.write32_inv_of_aligned w h ha) (aligned4_add4 ha)

/-- Under a well-formed map TEXT begins at an aligned address, modulo 2^32 too (R60, log 10). -/
theorem aligned4_textBase {m : RegionMap} (h : m.wellFormed = true) :
    aligned4 (BitVec.ofNat 32 m.text.base) = true := by
  obtain ⟨hbase, -, -⟩ := wellFormed_region h (r := m.text) (by simp [RegionMap.regions])
  rw [aligned4_iff, BitVec.toNat_ofNat]
  omega

/-- Loading an image keeps the invariant. -/
theorem State.loadImage_inv {s : State} (image : List Word) (h : s.Inv) : (s.loadImage image).Inv :=
  State.loadFrom_inv image h (aligned4_textBase h.1)

/-- Settles O25: each of the host's three writing operations keeps the invariant. -/
theorem hostOperationsKeepTheInvariant : Obligations.HostOperationsKeepTheInvariant := by
  unfold Obligations.HostOperationsKeepTheInvariant
  intro s h
  exact ⟨fun b => State.hostSetRun_inv b h, fun _ _ _ ht => State.hostWrite32_inv h ht,
    fun image => State.loadImage_inv image h⟩

end Sys2Proof.Machine
end

section
/-! SUPPORT. What each instruction may change, by name (R22, R23, R253), and the statements about whole steps that rest
on it. An instruction either meets a misaligned address or target (R272), and then takes the error path, or it changes
only what its rules name and leaves the outcome alone. -/

namespace Sys2Proof.Machine

/-! The alignment checks (R68) and the error path (R272). -/

theorem aligned4_iff_lowBits (a : Word) : aligned4 a = true ↔ a.extractLsb' 0 2 = 0#2 :=
  beq_iff_eq

theorem aligned2_iff_lowBits (a : Word) : aligned2 a = true ↔ a.extractLsb' 0 1 = 0#1 :=
  beq_iff_eq

/-- A misaligned address or target raises UnalignedAddress before anything is written (R272). -/
theorem exec_misaligned {i : Instr} {s : State} (h : misaligned s.cur.reg i) :
    exec i s = .next (s.raise .unalignedAddress) := by
  cases i with
  | jr rs | jalr rd rs | lw rt rs imm | sw rt rs imm => exact if_neg (mt (aligned4_iff_lowBits _).1 h)
  | lh rt rs imm | lhu rt rs imm | sh rt rs imm => exact if_neg (mt (aligned2_iff_lowBits _).1 h)
  | _ => exact h.elim

/-! The named changes. -/

/-- From `s` to `t` nothing of the state being built changes but what the rules of `i` name: its registers (R22), HI and
LO (R23), memory for a store (R253), the run flag for SYSCALL (R132). The outcome stays. -/
structure ChangesOnlyNamed (i : Instr) (s t : State) : Prop where
  reg : ∀ r, r ∉ dest i → t.nxt.reg r = s.nxt.reg r
  hi : writesHi i = false → t.nxt.hi = s.nxt.hi
  lo : writesLo i = false → t.nxt.lo = s.nxt.lo
  mem : isStore i = false → t.mem = s.mem
  run : i ≠ .syscall → t.run = s.run
  outcome : t.outcome = s.outcome

namespace ChangesOnlyNamed

variable {i : Instr} {s t u : State}

theorem trans (h : ChangesOnlyNamed i s t) (k : ChangesOnlyNamed i t u) : ChangesOnlyNamed i s u where
  reg r hr := (k.reg r hr).trans (h.reg r hr)
  hi hn := (k.hi hn).trans (h.hi hn)
  lo hn := (k.lo hn).trans (h.lo hn)
  mem hn := (k.mem hn).trans (h.mem hn)
  run hn := (k.run hn).trans (h.run hn)
  outcome := k.outcome.trans h.outcome

theorem setX {r : Reg} (v : Word) (hr : dest i = [r]) : ChangesOnlyNamed i s (s.setX r v) where
  reg q hq := Arch.reg_setReg_ne _ _ fun h => hq (by simp [h, hr])
  hi _ := rfl
  lo _ := rfl
  mem _ := rfl
  run _ := rfl
  outcome := rfl

theorem setHi (v : Word) (hw : writesHi i = true) : ChangesOnlyNamed i s (s.setHi v) where
  reg _ _ := rfl
  hi hn := by simp [hw] at hn
  lo _ := rfl
  mem _ := rfl
  run _ := rfl
  outcome := rfl

theorem setLo (v : Word) (hw : writesLo i = true) : ChangesOnlyNamed i s (s.setLo v) where
  reg _ _ := rfl
  hi _ := rfl
  lo hn := by simp [hw] at hn
  mem _ := rfl
  run _ := rfl
  outcome := rfl

theorem jumpTo (p : Word) : ChangesOnlyNamed i s (s.jumpTo p) where
  reg _ _ := rfl
  hi _ := rfl
  lo _ := rfl
  mem _ := rfl
  run _ := rfl
  outcome := rfl

theorem branchIf (c : Bool) (imm : BitVec 16) : ChangesOnlyNamed i s (s.branchIf c imm) where
  reg _ _ := by simp
  hi _ := by simp
  lo _ := by simp
  mem _ := by simp
  run _ := by simp
  outcome := by simp

theorem write32 (a v : Word) (hw : isStore i = true) : ChangesOnlyNamed i s (s.write32 a v) where
  reg _ _ := by simp
  hi _ := by simp
  lo _ := by simp
  mem hn := by simp [hw] at hn
  run _ := by simp
  outcome := by simp

theorem halt : ChangesOnlyNamed .syscall s s.halt where
  reg _ _ := rfl
  hi _ := rfl
  lo _ := rfl
  mem _ := rfl
  run hn := absurd rfl hn
  outcome := rfl

theorem setProduct (p : Int) (hh : writesHi i = true) (hl : writesLo i = true) :
    ChangesOnlyNamed i s (s.setProduct p) :=
  (setHi _ hh).trans (setLo _ hl)

theorem setQuotient (q r : Int) (hh : writesHi i = true) (hl : writesLo i = true) :
    ChangesOnlyNamed i s (s.setQuotient q r) :=
  (setLo _ hl).trans (setHi _ hh)

end ChangesOnlyNamed

/-- The state behind an alignment check that is met. -/
theorem eq_of_check {c : Prop} [Decidable c] {u v t : State}
    (h : (if c then .next u else .next v : Result) = .next t) (hc : c) : t = u := by
  rw [if_pos hc] at h
  cases h
  rfl

open ChangesOnlyNamed in
/-- An instruction whose address or target is aligned changes only what its rules name. -/
theorem exec_changesOnlyNamed {i : Instr} {s t : State} (h : exec i s = .next t) (ha : ¬ misaligned s.cur.reg i) :
    ChangesOnlyNamed i s t := by
  cases i with
  | jr rs =>
    obtain rfl := eq_of_check h ((aligned4_iff_lowBits _).2 (not_not.1 ha))
    exact jumpTo _
  | jalr rd rs =>
    obtain rfl := eq_of_check h ((aligned4_iff_lowBits _).2 (not_not.1 ha))
    exact (setX _ rfl).trans (jumpTo _)
  | lw rt rs imm =>
    obtain rfl := eq_of_check h ((aligned4_iff_lowBits _).2 (not_not.1 ha))
    exact setX _ rfl
  | lh rt rs imm | lhu rt rs imm =>
    obtain rfl := eq_of_check h ((aligned2_iff_lowBits _).2 (not_not.1 ha))
    exact setX _ rfl
  | sw rt rs imm =>
    obtain rfl := eq_of_check h ((aligned4_iff_lowBits _).2 (not_not.1 ha))
    exact write32 _ _ rfl
  | sh rt rs imm =>
    obtain rfl := eq_of_check h ((aligned2_iff_lowBits _).2 (not_not.1 ha))
    exact write32 _ _ rfl
  | sb rt rs imm => cases h; exact write32 _ _ rfl
  | syscall => cases h; exact (setX _ rfl).trans halt
  | mthi rs => cases h; exact setHi _ rfl
  | mtlo rs => cases h; exact setLo _ rfl
  | mult rs rt | multu rs rt => cases h; exact setProduct _ rfl rfl
  | div rs rt =>
    simp only [exec, execDiv, State.divideFault] at h
    split at h
    · cases h
    · split at h
      · cases h
      · cases h; exact setQuotient _ _ rfl rfl
  | divu rs rt =>
    simp only [exec, execDivu, State.divideFault] at h
    split at h
    · cases h
    · cases h; exact setQuotient _ _ rfl rfl
  | j target => cases h; exact jumpTo _
  | jal target => cases h; exact (setX _ rfl).trans (jumpTo _)
  | bltz rs imm | bgez rs imm | beq rs rt imm | bne rs rt imm | blez rs imm | bgtz rs imm =>
    cases h; exact branchIf _ _
  | bltzal rs imm | bgezal rs imm => cases h; exact (setX _ rfl).trans (branchIf _ _)
  | _ => cases h; exact setX _ rfl

/-- A next state of an instruction is the error path of R272 or changes only what the instruction's rules name. -/
theorem exec_next {i : Instr} {s t : State} (h : exec i s = .next t) :
    (misaligned s.cur.reg i ∧ t = s.raise .unalignedAddress) ∨ ChangesOnlyNamed i s t := by
  by_cases hm : misaligned s.cur.reg i
  · rw [exec_misaligned hm] at h
    cases h
    exact .inl ⟨hm, rfl⟩
  · exact .inr (exec_changesOnlyNamed h hm)

/-- Settles O20: on the error path only the next PC, the run flag and the outcome change. -/
theorem onlyNamedStateChanges : Obligations.OnlyNamedStateChanges := by
  unfold Obligations.OnlyNamedStateChanges
  intro i s t h
  obtain ⟨hcur, hcount, hmap⟩ := (exec_effect h).keeps
  rcases exec_next h with ⟨-, rfl⟩ | hn
  · exact ⟨⟨hcur, hcount, hmap, fun _ _ => rfl⟩, fun _ => rfl, fun _ => rfl, fun _ => rfl⟩
  · exact ⟨⟨hcur, hcount, hmap, hn.reg⟩, hn.hi, hn.lo, hn.mem⟩

/-! Whole steps. -/

/-- A step whose word is no instruction takes the error path with UnknownInstruction (R271). -/
theorem step_of_reject {s : State} {why : DecodeReject} (h : s.fetched = .reject why) :
    step s = .next (s.erred .unknownInstruction) := by
  rw [step_eq, h, raise_commit]

/-- A step whose word is an instruction runs it in the prepared state and commits what it answers. -/
theorem step_of_instr {s : State} {i : Instr} (h : s.fetched = .instr i) :
    step s = committed (exec i s.beginStep) := by
  simp only [step_eq, h]
  cases exec i s.beginStep <;> rfl

/-- A step whose instruction meets a misaligned address or target takes the error path with UnalignedAddress. -/
theorem step_of_misaligned {s : State} {i : Instr} (h : s.fetched = .instr i)
    (hm : misaligned s.curZeroed.reg i) : step s = .next (s.erred .unalignedAddress) := by
  rw [step_of_instr h, exec_misaligned (s := s.beginStep) hm]
  rfl

/-- The three ways a step answers a next state: no instruction, a misaligned one, or one that commits named changes. -/
theorem step_cases {s t : State} (h : step s = .next t) :
    (∃ why, s.fetched = .reject why ∧ t = s.erred .unknownInstruction) ∨
    (∃ i, s.fetched = .instr i ∧ misaligned s.curZeroed.reg i ∧ t = s.erred .unalignedAddress) ∨
    (∃ i u, s.fetched = .instr i ∧ exec i s.beginStep = .next u ∧ ChangesOnlyNamed i s.beginStep u ∧
      t = u.commit) := by
  rcases step_next h with ⟨why, hf, rfl⟩ | ⟨i, u, hf, hu, rfl⟩
  · exact .inl ⟨why, hf, rfl⟩
  · rcases exec_next hu with ⟨hm, rfl⟩ | hn
    · exact .inr (.inl ⟨i, hf, hm, rfl⟩)
    · exact .inr (.inr ⟨i, u, hf, hu, hn, rfl⟩)

/-- Settles O5: what the zeroed register file reads is the rule for one register write, and the rest is copied. -/
theorem fetchPreparesBothBuffers : Obligations.FetchPreparesBothBuffers := by
  unfold Obligations.FetchPreparesBothBuffers
  exact fun s => ⟨fun r => Arch.reg_setReg s.cur 0 r 0, rfl, rfl, rfl, rfl, rfl, rfl, rfl, rfl, rfl⟩

/-- Settles O6: `step_of_instr`, as every instruction term is well formed. -/
theorem stepRunsTheDecodedInstruction : Obligations.StepRunsTheDecodedInstruction := by
  unfold Obligations.StepRunsTheDecodedInstruction
  exact fun _ _ h _ => step_of_instr h

/-- Settles O10: an outcome other than Ok leaves only the two error ways of `step_cases`. -/
theorem everyStepCommitsAndCounts : Obligations.EveryStepCommitsAndCounts := by
  unfold Obligations.EveryStepCommitsAndCounts
  intro s t h
  rcases step_cases h with ⟨_, _, rfl⟩ | ⟨_, _, _, rfl⟩ | ⟨i, u, _, hu, hn, rfl⟩
  · exact ⟨rfl, rfl, fun _ => rfl⟩
  · exact ⟨rfl, rfl, fun _ => rfl⟩
  · obtain ⟨-, hcount, -⟩ := (exec_effect hu).keeps
    exact ⟨rfl, congrArg (· + 1) hcount, fun herr => absurd hn.outcome herr⟩

/-- Settles O15: both error ways clear the run flag, and of the instructions only SYSCALL does. -/
theorem runFlagFallsOnlyByErrorOrSyscall : Obligations.RunFlagFallsOnlyByErrorOrSyscall := by
  unfold Obligations.RunFlagFallsOnlyByErrorOrSyscall
  intro s t h
  rcases step_cases h with ⟨_, _, rfl⟩ | ⟨_, _, _, rfl⟩ | ⟨i, u, hf, hu, hn, rfl⟩
  · simp [State.erred]
  · simp [State.erred]
  · have hok : u.outcome = .ok := hn.outcome
    by_cases hi : i = .syscall
    · subst hi
      cases hu
      simp [hf]
    · have hrun : u.run = s.run := hn.run hi
      simp [hf, hi, hok, hrun]

/-- An error step leaves the instruction to fetch as it was. -/
theorem State.fetched_erred (s : State) (o : OutcomeCode) : (s.erred o).fetched = s.fetched :=
  rfl

/-- Register 0 is zeroed once; a second error step changes only the counter and the outcome. -/
theorem State.erred_erred (s : State) (o o' : OutcomeCode) :
    (s.erred o).erred o' = { s.erred o' with count := s.count + 2 } := by
  simp [State.erred, State.curZeroed]

/-- Settles O17: the step after an error step fetches the same word and reads the same registers. -/
theorem errorStepRepeatsItself : Obligations.ErrorStepRepeatsItself := by
  unfold Obligations.ErrorStepRepeatsItself
  intro s t h herr
  rcases step_cases h with ⟨why, hf, rfl⟩ | ⟨i, hf, hm, rfl⟩ | ⟨i, u, _, _, hn, rfl⟩
  · rw [step_of_reject ((s.fetched_erred _).trans hf), State.erred_erred]
    rfl
  · have hm' : misaligned (s.erred .unalignedAddress).curZeroed.reg i := by
      simpa [State.erred, State.curZeroed] using hm
    rw [step_of_misaligned ((s.fetched_erred _).trans hf) hm', State.erred_erred]
    rfl
  · exact absurd hn.outcome herr

end Sys2Proof.Machine
end

section
/-! SUPPORT. The state at reset (R33), and the invariant of committed states under a step. -/

namespace Sys2Proof.Machine

/-! Reset. -/

@[simp] theorem Arch.reg_reset (map : RegionMap) (r : Reg) : (Arch.reset map).reg r = 0 := by
  simp [Arch.reg, Arch.reset]

theorem State.resetWith_inv {m : RegionMap} (h : m.wellFormed = true) : (State.resetWith m).Inv :=
  ⟨h, rfl, rfl, aligned4_textBase h, rfl⟩

/-- Settles O8: the PC is the base of TEXT, a multiple of 4, and no byte is listed. -/
theorem resetMeetsTheInvariant : Obligations.ResetMeetsTheInvariant := by
  unfold Obligations.ResetMeetsTheInvariant
  exact ⟨fun _ => State.resetWith_inv, by decide⟩

/-- Settles O9: only the register file is not read off the definition at once. -/
theorem resetLeavesTheStatedValues : Obligations.ResetLeavesTheStatedValues := by
  unfold Obligations.ResetLeavesTheStatedValues
  exact ⟨fun m => ⟨rfl, Arch.reg_reset m, rfl, rfl, rfl, rfl, rfl, rfl, fun _ => rfl⟩, rfl, rfl⟩

/-! The step. -/

/-- Committing makes `cur` and `nxt` equal, so the invariant of what is committed asks four things of what was built. -/
theorem State.commit_inv_iff (s : State) : s.commit.Inv ↔
    s.map.wellFormed = true ∧ s.mem.wf = true ∧ s.mem.inside s.map = true ∧ aligned4 s.nxt.pc = true := by
  simp [State.Inv]

/-- A store is not buffered (R32): it may as well come after the commit. -/
theorem State.commit_write32 (s : State) (a v : Word) : (s.write32 a v).commit = s.commit.write32 a v :=
  apply_ite State.commit _ _ _

/-- The prepared state would meet the invariant if it were committed as it is, as a no-op does. -/
theorem State.beginStep_commit_inv {s : State} (h : s.Inv) : s.beginStep.commit.Inv := by
  obtain ⟨hmap, hwf, hin, hpc, -⟩ := h
  exact (State.commit_inv_iff _).2 ⟨hmap, hwf, hin, aligned4_add4 hpc⟩

/-- No shape of a next state spoils the invariant of what is committed: a new PC is aligned and so is a store. -/
theorem Effect.commit_inv {s t : State} (h : Effect s t) (hpc : aligned4 s.cur.pc = true) (hs : s.commit.Inv) :
    t.commit.Inv := by
  cases h with
  | store a v ha =>
    rw [State.commit_write32]
    exact State.write32_inv_of_aligned v hs ha
  | jump p hp =>
    obtain ⟨hmap, hwf, hin, -⟩ := s.commit_inv_iff.1 hs
    exact (State.commit_inv_iff _).2 ⟨hmap, hwf, hin, hp hpc⟩
  | linkJump r p hp =>
    obtain ⟨hmap, hwf, hin, -⟩ := s.commit_inv_iff.1 hs
    exact (State.commit_inv_iff _).2 ⟨hmap, hwf, hin, hp hpc⟩
  | unaligned =>
    obtain ⟨hmap, hwf, hin, -⟩ := s.commit_inv_iff.1 hs
    exact (State.commit_inv_iff _).2 ⟨hmap, hwf, hin, hpc⟩
  | _ => exact (State.commit_inv_iff _).2 (s.commit_inv_iff.1 hs)

/-- An error step keeps the invariant: its PC is the old one. -/
theorem State.erred_inv {s : State} (o : OutcomeCode) (h : s.Inv) : (s.erred o).Inv := by
  obtain ⟨hmap, hwf, hin, hpc, -⟩ := h
  exact ⟨hmap, hwf, hin, hpc, rfl⟩

/-- Settles O7: a step takes the error path, or commits one shape of `Effect` on the prepared state. -/
theorem everyStepKeepsTheInvariant : Obligations.EveryStepKeepsTheInvariant := by
  unfold Obligations.EveryStepKeepsTheInvariant
  intro s t h ht
  rcases step_next ht with ⟨_, _, rfl⟩ | ⟨i, u, _, hu, rfl⟩
  · exact State.erred_inv _ h
  · have ⟨_, _, _, hpc, _⟩ := h
    exact (exec_effect hu).commit_inv hpc (State.beginStep_commit_inv h)

end Sys2Proof.Machine
end

section
/-! SUPPORT. What a word access reads and writes (R61 to R63), the lanes of a word (R64, R66), and which host accesses
are refused (R65). The rules for one `read32` after one `write32` carry the statements. -/

namespace Sys2Proof.Machine

/-! One `write32`: the bytes it sets, and what else it touches. -/

/-- `write32` changes memory alone (R62). -/
theorem State.write32_eq_setMem (s : State) (a v : Word) : s.write32 a v = { s with mem := (s.write32 a v).mem } := by
  unfold State.write32
  split <;> rfl

/-- What every byte reads after `write32`: at a mapped address the word's four bytes are set, at an unmapped one none
(R62, R63). -/
theorem State.byteAt_write32 {s : State} (h : s.mem.wf = true) (a v : Word) (b : Nat) :
    (s.write32 a v).mem.byteAt b =
      if s.map.mapped a.toNat = true ∧ a.toNat ≤ b ∧ b < a.toNat + 4 then v.extractLsb' (8 * (b - a.toNat)) 8
      else s.mem.byteAt b := by
  rw [State.write32_mem]
  split
  next hm => simp [Memory.byteAt_setWord h, hm]
  next hm => simp [hm]

/-- Settles O21: an address is mapped exactly when one of the five regions holds it, and `write32` sets the four bytes
from a mapped address on. -/
theorem wordAccessFollowsTheRegions : Obligations.WordAccessFollowsTheRegions := by
  unfold Obligations.WordAccessFollowsTheRegions
  refine ⟨fun s a => if_congr (mapped_iff _ _) rfl rfl, fun s a v h => ⟨fun b => ?_, ?_⟩⟩
  · rw [State.byteAt_write32 h]
    exact if_congr (and_congr_left' (mapped_iff _ _)) rfl rfl
  · exact ⟨_, State.write32_eq_setMem s a v, State.write32_wf a v h⟩

/-! One `read32` after one `write32`. -/

/-- A word read gives the word just written there, and 0 at an unmapped address (R61 to R63). -/
theorem State.read32_write32_same {s : State} (h : s.mem.wf = true) (a v : Word) :
    (s.write32 a v).read32 a = if s.map.mapped a.toNat then v else 0 := by
  rw [State.read32, State.write32_map, State.write32_mem]
  split
  next => exact Memory.wordAt_setWord_same h _ v
  next => rfl

/-- A word read is untouched by a write that shares no byte with it. -/
theorem State.read32_write32_apart {s : State} (h : s.mem.wf = true) {a b : Word} (v : Word)
    (hab : b.toNat + 4 ≤ a.toNat ∨ a.toNat + 4 ≤ b.toNat) : (s.write32 a v).read32 b = s.read32 b := by
  have hword : (s.write32 a v).mem.wordAt b.toNat = s.mem.wordAt b.toNat := by
    rw [State.write32_mem]
    split
    next => exact Memory.wordAt_setWord_apart h v hab
    next => rfl
  rw [State.read32, State.read32, State.write32_map, hword]

/-- Two different aligned words share no byte. -/
theorem aligned4_apart {a b : Word} (ha : aligned4 a = true) (hb : aligned4 b = true) (hne : b ≠ a) :
    b.toNat + 4 ≤ a.toNat ∨ a.toNat + 4 ≤ b.toNat := by
  have hne' : b.toNat ≠ a.toNat := mt BitVec.eq_of_toNat_eq hne
  rw [aligned4_iff] at ha hb
  omega

/-- Settles O22: the two rules for a read after a write, as different aligned words share no byte. -/
theorem wordWriteThenRead : Obligations.WordWriteThenRead := by
  unfold Obligations.WordWriteThenRead
  intro s a b v h ha hb
  rw [← aligned4_iff_lowBits] at ha hb
  exact ⟨State.read32_write32_same h a v, fun hne => State.read32_write32_apart h v (aligned4_apart ha hb hne)⟩

/-- SW at an aligned address completes with one `write32` (R252). -/
theorem exec_sw_of_aligned {s : State} {rt rs : Reg} {imm : BitVec 16} (ha : aligned4 (eaOf s rs imm) = true) :
    exec (.sw rt rs imm) s = .next (s.write32 (eaOf s rs imm) (s.cur.reg rt)) :=
  if_pos ha

/-- Settles O19: the store comes as if after the commit (R32), and the committed PC is the address it wrote. -/
theorem storedWordIsFetchedNext : Obligations.StoredWordIsFetchedNext := by
  unfold Obligations.StoredWordIsFetchedNext
  intro s rt rs imm h hf hea hpc hm
  have hea' : eaOf s.beginStep rs imm = s.cur.pc + 4 := hea
  have hal : aligned4 (eaOf s.beginStep rs imm) = true := by rwa [hea', aligned4_iff_lowBits]
  have hread : (s.beginStep.commit.write32 (s.cur.pc + 4) (s.curZeroed.reg rt)).read32 (s.cur.pc + 4) =
      s.curZeroed.reg rt := by
    rw [State.read32_write32_same (s := s.beginStep.commit) h]
    exact if_pos hm
  refine ⟨s.beginStep.commit.write32 (s.cur.pc + 4) (s.curZeroed.reg rt), ?_, ?_⟩
  · rw [step_of_instr hf, exec_sw_of_aligned hal, hea', ← State.commit_write32]
    rfl
  · rw [State.fetched, State.write32_cur]
    exact congrArg decodeWord hread

/-! The lanes of a word (R66). -/

/-- The containing word begins at the multiple of 4 at or below the address (R66). -/
theorem toNat_wordAddr (a : Word) : (wordAddr a).toNat = a.toNat / 4 * 4 := by
  have hshift : wordAddr a = a >>> 2 <<< 2 := (BitVec.shiftLeft_ushiftRight (x := a) (n := 2)).symm
  rw [hshift, BitVec.toNat_shiftLeft, BitVec.toNat_ushiftRight, Nat.shiftLeft_eq, Nat.shiftRight_eq_div_pow]
  omega

/-- A lane begins eight bits per byte above the containing word's address (R66). -/
theorem laneShift_eq (a : Word) : laneShift a = 8 * (a.toNat % 4) := by
  simp [laneShift, BitVec.extractLsb'_toNat]

/-- The four addresses from an aligned one on do not wrap round the space. -/
theorem toNat_aligned4_add {a k : Word} (ha : aligned4 a = true) (hk : k.toNat < 4) :
    (a + k).toNat = a.toNat + k.toNat := by
  rw [aligned4_iff] at ha
  rw [BitVec.toNat_add]
  omega

theorem wordAddr_aligned4_add {a k : Word} (ha : aligned4 a = true) (hk : k.toNat < 4) : wordAddr (a + k) = a := by
  apply BitVec.eq_of_toNat_eq
  rw [toNat_wordAddr, toNat_aligned4_add ha hk]
  rw [aligned4_iff] at ha
  omega

theorem laneShift_aligned4_add {a k : Word} (ha : aligned4 a = true) (hk : k.toNat < 4) :
    laneShift (a + k) = 8 * k.toNat := by
  rw [laneShift_eq, toNat_aligned4_add ha hk]
  rw [aligned4_iff] at ha
  omega

section
variable {s : State} {a k : Word} (v : Word) (h : s.mem.wf = true) (ha : aligned4 a = true)
  (hm : s.map.mapped a.toNat = true) (hk : k.toNat < 4)
include h ha hm hk

/-- The word that contains lane `k` of a word just written is that word (R66). -/
theorem State.read32_write32_lane : (s.write32 a v).read32 (wordAddr (a + k)) = v := by
  rw [wordAddr_aligned4_add ha hk, State.read32_write32_same h, if_pos hm]

/-- The byte read at lane `k` of a word just written is its byte `k` (R64, R66). -/
theorem State.memRead8_write32_add : (s.write32 a v).memRead8 (a + k) = v.extractLsb' (8 * k.toNat) 8 := by
  rw [State.memRead8, State.read32_write32_lane v h ha hm hk, laneShift_aligned4_add ha hk]

/-- The halfword read at lane `k` of a word just written is 16 bits of it from byte `k` on (R64, R66). -/
theorem State.memRead16_write32_add : (s.write32 a v).memRead16 (a + k) = v.extractLsb' (8 * k.toNat) 16 := by
  rw [State.memRead16, State.read32_write32_lane v h ha hm hk, laneShift_aligned4_add ha hk]

end

/-- Settles O23: each byte and halfword is the lane rule at one offset. -/
theorem lanesAreLittleEndian : Obligations.LanesAreLittleEndian := by
  unfold Obligations.LanesAreLittleEndian
  intro s a v h ha hm
  rw [← aligned4_iff_lowBits] at ha
  have hbyte (k : Word) (hk : k.toNat < 4) := State.memRead8_write32_add v h ha hm hk
  have hhalf (k : Word) (hk : k.toNat < 4) := State.memRead16_write32_add v h ha hm hk
  have hbyte0 := hbyte 0#32 (by decide)
  have hhalf0 := hhalf 0#32 (by decide)
  rw [BitVec.add_zero] at hbyte0 hhalf0
  exact ⟨hbyte0, hbyte 1 (by decide), hbyte 2 (by decide), hbyte 3 (by decide), hhalf0, hhalf 2 (by decide)⟩

/-! The region an address lies in, and the host's accesses past its end (R65). -/

/-- Two regions that share an address are not disjoint. -/
theorem Region.disjoint_eq_false {r q : Region} {a : Nat} (hr : r.contains a = true) (hq : q.contains a = true) :
    r.disjoint q = false := by
  simp only [Region.contains, Bool.and_eq_true, decide_eq_true_eq] at hr hq
  simp only [Region.disjoint, Bool.or_eq_false_iff, beq_eq_false_iff_ne, decide_eq_false_iff_not]
  omega

/-- Of pairwise disjoint regions at most one holds an address. -/
theorem Region.eq_of_contains {a : Nat} {r q : Region} (hra : r.contains a = true) (hqa : q.contains a = true) :
    ∀ {rs : List Region}, Region.allDisjoint rs = true → r ∈ rs → q ∈ rs → r = q
  | p :: rs, h, hr, hq => by
    simp only [Region.allDisjoint, Bool.and_eq_true, List.all_eq_true] at h
    obtain ⟨hhead, htail⟩ := h
    rcases List.mem_cons.1 hr with rfl | hr' <;> rcases List.mem_cons.1 hq with rfl | hq'
    · rfl
    · exact absurd (hhead q hq') (by simp [Region.disjoint_eq_false hra hqa])
    · exact absurd (hhead r hr') (by simp [Region.disjoint_eq_false hqa hra])
    · exact Region.eq_of_contains hra hqa htail hr' hq'

/-- The search of R61 answers a region that holds the address. -/
theorem regionOf_some {m : RegionMap} {a : Nat} {r : Region} (h : m.regionOf a = some r) :
    r ∈ m.regions ∧ r.contains a = true :=
  ⟨List.mem_of_find?_eq_some h, List.find?_some (p := (Region.contains · a)) h⟩

/-- Under a well-formed map the search of R61 finds a region exactly when it holds the address. -/
theorem regionOf_eq_some_iff {m : RegionMap} (h : m.wellFormed = true) {a : Nat} {r : Region} :
    m.regionOf a = some r ↔ r ∈ m.regions ∧ r.contains a = true := by
  refine ⟨regionOf_some, fun ⟨hr, hra⟩ => ?_⟩
  obtain ⟨q, hq⟩ := Option.isSome_iff_exists.1 (List.find?_isSome (p := (Region.contains · a)).2 ⟨r, hr, hra⟩)
  obtain ⟨hqm, hqa⟩ := regionOf_some hq
  have hdisjoint : Region.allDisjoint m.regions = true := (Bool.and_eq_true_iff.1 h).2
  rw [Region.eq_of_contains hra hqa hdisjoint hr hqm]
  exact hq

/-- Under a well-formed map an access runs past the end of its region exactly when the one that holds the address ends
before the fourth byte (R65). -/
theorem pastEnd_iff {m : RegionMap} (h : m.wellFormed = true) (a : Nat) : m.pastEnd a = true ↔
    ∃ r ∈ m.regions, r.base ≤ a ∧ a < r.base + r.size ∧ r.base + r.size < a + 4 := by
  have hfound : m.pastEnd a = true ↔ ∃ r, m.regionOf a = some r ∧ r.base + r.size < a + 4 := by
    unfold RegionMap.pastEnd
    cases m.regionOf a <;> simp
  simp only [hfound, regionOf_eq_some_iff h, Region.contains, Bool.and_eq_true, decide_eq_true_eq, and_assoc]

/-- Under a well-formed map an aligned access stays in its region. -/
theorem pastEnd_of_aligned4 {m : RegionMap} (h : m.wellFormed = true) {a : Word} (ha : aligned4 a = true) :
    m.pastEnd a.toNat = false := by
  rw [← Bool.not_eq_true, pastEnd_iff h]
  rintro ⟨r, hr, hlo, hhi, hend⟩
  obtain ⟨hbase, hsize, -⟩ := wellFormed_region h hr
  rw [aligned4_iff] at ha
  omega

/-- An access past the end of a region is refused, a read and a write alike (R65, D14). -/
theorem State.hostAccess_of_pastEnd {s : State} {a : Word} (v : Word) (h : s.map.pastEnd a.toNat = true) :
    s.hostRead32 a = .refused (.hostAccessPastRegion a) ∧ s.hostWrite32 a v = .refused (.hostAccessPastRegion a) :=
  ⟨if_pos h, if_pos h⟩

/-- Any other access answers what the core's `read32` and `write32` do (R61, R62). -/
theorem State.hostAccess_of_not_pastEnd {s : State} {a : Word} (v : Word) (h : ¬ s.map.pastEnd a.toNat = true) :
    s.hostRead32 a = .next (s.read32 a) ∧ s.hostWrite32 a v = .next (s.write32 a v) :=
  ⟨if_neg h, if_neg h⟩

/-- Settles O24: under a well-formed map `pastEnd` says which region ends too early, and none does at an aligned
address. -/
theorem hostAccessPastRegionIsRefused : Obligations.HostAccessPastRegionIsRefused := by
  unfold Obligations.HostAccessPastRegionIsRefused
  intro s a v h
  rw [← pastEnd_iff h]
  refine ⟨State.hostAccess_of_pastEnd v, State.hostAccess_of_not_pastEnd v, fun ha => ?_⟩
  have hend := pastEnd_of_aligned4 h ((aligned4_iff_lowBits a).2 ha)
  exact (State.hostAccess_of_not_pastEnd v (Bool.eq_false_iff.1 hend)).1

end Sys2Proof.Machine
end

section
/-! SUPPORT. The encoder and the decoder (R80 to R99): decoding what was encoded, the rows of the opcode table a word
matches, the fields an instruction ignores, and the two statements about a fetch that rest on them. -/

namespace Sys2Proof

/-! The two opcodes with a second level of dispatch (R85, R87). -/

theorem decodeDispatch_of_opcode_zero {f : Fields} (h : f.opcode = 0#6) : decodeDispatch f = decodeSpecial f := by
  simp [decodeDispatch, h]

theorem decodeDispatch_of_opcode_one {f : Fields} (h : f.opcode = 1#6) : decodeDispatch f = decodeRegimm f := by
  simp [decodeDispatch, h]

/-! Decoding an encoded word (R81, R82, log 8). -/

/-- Four bytes of a word are decoded as the word, whatever bytes follow them (R64, R80). -/
theorem decodeBytes_bytesOfWord (w : Word) (rest : List Byte) :
    decodeBytes (bytesOfWord w ++ rest) = (decodeWord w, rest) :=
  congrArg (fun v => (decodeWord v, rest)) (Machine.wordOfBytes_extract w)

/-- An R-type word is dispatched on its own fields. -/
theorem decodeWord_encodeR (rs rt rd shamt : BitVec 5) (funct : BitVec 6) :
    let w := encodeR rs rt rd shamt funct
    decodeWord w = decodeSpecial ⟨0#6, rs, rt, rd, shamt, funct, immOf w, targetOf w⟩ := by
  simp [decodeWord, decodeFields_eq, decodeDispatch, immOf, targetOf]

/-- An I-type word is dispatched on its own fields. -/
theorem decodeWord_encodeI (opcode : BitVec 6) (rs rt : BitVec 5) (imm : BitVec 16) :
    let w := encodeI opcode rs rt imm
    decodeWord w = decodeDispatch ⟨opcode, rs, rt, rdOf w, shamtOf w, w.extractLsb' 0 6, imm, targetOf w⟩ := by
  simp [decodeWord, decodeFields_eq, rdOf, shamtOf, targetOf]

/-- A J-type word is dispatched on its own fields. -/
theorem decodeWord_encodeJ (opcode : BitVec 6) (target : BitVec 26) :
    let w := encodeJ opcode target
    decodeWord w = decodeDispatch ⟨opcode, rsOf w, rtOf w, rdOf w, shamtOf w, w.extractLsb' 0 6, immOf w, target⟩ := by
  simp [decodeWord, decodeFields_eq, rsOf, rtOf, rdOf, shamtOf, immOf]

/-- The word of an instruction decodes to the instruction: by its format, the dispatch finds its operands. -/
theorem decodeWord_encode (i : Instr) : decodeWord (encode i) = .instr i := by
  cases i with
  | j target | jal target => exact decodeWord_encodeJ _ _
  | bltz rs imm | bgez rs imm | bltzal rs imm | bgezal rs imm => exact decodeWord_encodeI _ _ _ _
  | beq rs rt imm | bne rs rt imm | blez rs imm | bgtz rs imm => exact decodeWord_encodeI _ _ _ _
  | addi rt rs imm | addiu rt rs imm | slti rt rs imm | sltiu rt rs imm => exact decodeWord_encodeI _ _ _ _
  | andi rt rs imm | ori rt rs imm | xori rt rs imm | lui rt imm => exact decodeWord_encodeI _ _ _ _
  | lb rt rs imm | lh rt rs imm | lw rt rs imm | lbu rt rs imm | lhu rt rs imm => exact decodeWord_encodeI _ _ _ _
  | sb rt rs imm | sh rt rs imm | sw rt rs imm => exact decodeWord_encodeI _ _ _ _
  | _ => exact decodeWord_encodeR _ _ _ _ _

/-- Settles O1: the bytes of the word are put together again, and the word decodes to its instruction. -/
theorem encodedInstructionDecodesBack : Obligations.EncodedInstructionDecodesBack := by
  unfold Obligations.EncodedInstructionDecodesBack
  intro i rest _
  rw [encodeBytes, decodeBytes_bytesOfWord, decodeWord_encode]

/-! The rows a word matches (R84 to R90). The mnemonic depends on the dispatch fields alone, so what is left is one
finite check per level of the dispatch. -/

/-- Fields that hold an opcode, a `funct` and an `rt`, and 0 elsewhere. -/
def Fields.dispatchOnly (opcode funct : BitVec 6) (rt : BitVec 5) : Fields :=
  ⟨opcode, 0, rt, 0, 0, funct, 0, 0⟩

/-! No arm of the dispatch lets an operand field choose the mnemonic. -/

theorem decodeSpecial_mnemonics (f : Fields) :
    (decodeSpecial f).mnemonics = (decodeSpecial (.dispatchOnly 0 f.funct 0)).mnemonics := by
  simp only [decodeSpecial, Fields.dispatchOnly]
  split <;> rfl

theorem decodeRegimm_mnemonics (f : Fields) :
    (decodeRegimm f).mnemonics = (decodeRegimm (.dispatchOnly 1 0 f.rt)).mnemonics := by
  simp only [decodeRegimm, Fields.dispatchOnly]
  split <;> rfl

theorem decodeDispatch_mnemonics {f : Fields} (h0 : f.opcode ≠ 0#6) (h1 : f.opcode ≠ 1#6) :
    (decodeDispatch f).mnemonics = (decodeDispatch (.dispatchOnly f.opcode 0 0)).mnemonics := by
  simp only [decodeDispatch, Fields.dispatchOnly]
  split
  · contradiction
  · contradiction
  all_goals rfl

/-! The finite checks: 64 values of `funct`, 32 of `rt`, 64 opcodes. -/

theorem rowsOfFields_special : ∀ funct : BitVec 6,
    rowsOfFields 0 funct.toNat 0 = (decodeSpecial (.dispatchOnly 0 funct 0)).mnemonics := by
  decide

theorem rowsOfFields_regimm : ∀ rt : BitVec 5,
    rowsOfFields 1 0 rt.toNat = (decodeRegimm (.dispatchOnly 1 0 rt)).mnemonics := by
  decide

theorem rowsOfFields_opcode : ∀ opcode : BitVec 6, opcode ≠ 0#6 → opcode ≠ 1#6 →
    rowsOfFields opcode.toNat 0 0 = (decodeDispatch (.dispatchOnly opcode 0 0)).mnemonics := by
  decide

/-- Every other opcode selects rows of R89 alone, so neither `funct` nor `rt` matters. -/
theorem rowsOfFields_eq_of_ne {opcode : Nat} (h0 : opcode ≠ 0) (h1 : opcode ≠ 1) (funct rt : Nat) :
    rowsOfFields opcode funct rt =
      (opcodeRowsOther.filter fun r => r.matchesFields opcode 0 0).map OpcodeRow.mnemonic := by
  have hs : opcodeRowsSpecial.filter (fun r => r.matchesFields opcode funct rt) = [] := by
    simp [opcodeRowsSpecial, OpcodeRow.matchesFields, h0]
  have hr : opcodeRowsRegimm.filter (fun r => r.matchesFields opcode funct rt) = [] := by
    simp [opcodeRowsRegimm, OpcodeRow.matchesFields, h1]
  rw [rowsOfFields, opcodeTable, List.filter_append, List.filter_append, hs, hr]
  rfl

/-- The rows that the dispatch fields select are what the dispatch reads. -/
theorem rowsOfFields_eq (f : Fields) :
    rowsOfFields f.opcode.toNat f.funct.toNat f.rt.toNat = (decodeDispatch f).mnemonics := by
  by_cases h0 : f.opcode = 0#6
  · calc rowsOfFields f.opcode.toNat f.funct.toNat f.rt.toNat
      _ = rowsOfFields 0 f.funct.toNat 0 := by rw [h0]; rfl
      _ = (decodeSpecial f).mnemonics := by rw [rowsOfFields_special, decodeSpecial_mnemonics f]
      _ = (decodeDispatch f).mnemonics := by rw [decodeDispatch_of_opcode_zero h0]
  by_cases h1 : f.opcode = 1#6
  · calc rowsOfFields f.opcode.toNat f.funct.toNat f.rt.toNat
      _ = rowsOfFields 1 0 f.rt.toNat := by rw [h1]; rfl
      _ = (decodeRegimm f).mnemonics := by rw [rowsOfFields_regimm, decodeRegimm_mnemonics f]
      _ = (decodeDispatch f).mnemonics := by rw [decodeDispatch_of_opcode_one h1]
  have h0' : f.opcode.toNat ≠ 0 := fun h => h0 (BitVec.eq_of_toNat_eq h)
  have h1' : f.opcode.toNat ≠ 1 := fun h => h1 (BitVec.eq_of_toNat_eq h)
  rw [rowsOfFields_eq_of_ne h0' h1', decodeDispatch_mnemonics h0 h1, ← rowsOfFields_opcode _ h0 h1,
    rowsOfFields_eq_of_ne h0' h1']

/-- Settles O2: a word's matching rows and its decoding are read off the same three fields. -/
theorem decodingFollowsTheOpcodeTable : Obligations.DecodingFollowsTheOpcodeTable := by
  unfold Obligations.DecodingFollowsTheOpcodeTable
  exact fun w => (matchingRows_eq w).trans (rowsOfFields_eq (decodeFields w))

/-! The fields an instruction ignores (R92). -/

/-- A field outside a mask keeps its value when bits of the mask are flipped. -/
theorem extractLsb'_flip {w flips mask : Word} {start len : Nat} (h : mask.extractLsb' start len = 0#len) :
    (w ^^^ (flips &&& mask)).extractLsb' start len = w.extractLsb' start len := by
  rw [BitVec.extractLsb'_xor, BitVec.extractLsb'_and, h, BitVec.and_zero, BitVec.xor_zero]

/-- The opcode is no ignored field. -/
theorem ignoredBits_opcode (i : Instr) : i.ignoredBits.extractLsb' 26 6 = 0#6 := by
  unfold Instr.ignoredBits
  split <;> rfl

/-- Under opcode 0 the `funct` stays, so the same arm is taken, and its operands stand outside the ignored fields. -/
theorem decodeSpecial_flip {w : Word} {i : Instr} (flips : Word) (h : decodeSpecial (decodeFields w) = .instr i) :
    decodeSpecial (decodeFields (w ^^^ (flips &&& i.ignoredBits))) = .instr i := by
  simp only [decodeFields_eq, decodeSpecial] at h ⊢
  split at h <;> cases h
  all_goals
    rename_i hfunct
    simp (disch := decide) only [Instr.ignoredBits, extractLsb'_flip, hfunct]

/-- Under opcode 1 no field is ignored. -/
theorem decodeRegimm_flip {w : Word} {i : Instr} (flips : Word) (h : decodeRegimm (decodeFields w) = .instr i) :
    decodeRegimm (decodeFields (w ^^^ (flips &&& i.ignoredBits))) = .instr i := by
  have hi : i.ignoredBits = 0 := by
    unfold decodeRegimm at h
    split at h <;> cases h <;> rfl
  simpa [hi] using h

/-- Flipping bits of the ignored fields leaves the opcode, hence the arm of the dispatch, and its operands. -/
theorem decodeWord_flip {w : Word} {i : Instr} (flips : Word) (h : decodeWord w = .instr i) :
    decodeWord (w ^^^ (flips &&& i.ignoredBits)) = .instr i := by
  have hop : (w ^^^ (flips &&& i.ignoredBits)).extractLsb' 26 6 = w.extractLsb' 26 6 :=
    extractLsb'_flip (ignoredBits_opcode i)
  by_cases h0 : w.extractLsb' 26 6 = 0#6
  · exact (decodeDispatch_of_opcode_zero (hop.trans h0)).trans
      (decodeSpecial_flip flips ((decodeDispatch_of_opcode_zero h0).symm.trans h))
  by_cases h1 : w.extractLsb' 26 6 = 1#6
  · exact (decodeDispatch_of_opcode_one (hop.trans h1)).trans
      (decodeRegimm_flip flips ((decodeDispatch_of_opcode_one h1).symm.trans h))
  simp only [decodeWord, decodeFields_eq, decodeDispatch, hop] at h ⊢
  split at h
  · contradiction
  · contradiction
  all_goals cases h
  all_goals simp (disch := decide) only [Instr.ignoredBits, extractLsb'_flip]

/-- Settles O3: the flipped word takes the same arm of the dispatch with the same operands. -/
theorem ignoredFieldsDoNotMatter : Obligations.IgnoredFieldsDoNotMatter := by
  unfold Obligations.IgnoredFieldsDoNotMatter
  exact fun _ flips _ h => decodeWord_flip flips h

end Sys2Proof

namespace Sys2Proof.Machine

/-! Fetching a word that is no instruction (R99, R271), and fetching at an unmapped PC (R63, R93). -/

/-- A word matches no row of the opcode table exactly when the decoder rejects it. -/
theorem matchingRows_eq_nil_iff (w : Word) : matchingRows w = [] ↔ ∃ why, decodeWord w = .reject why := by
  rw [decodingFollowsTheOpcodeTable w]
  cases decodeWord w <;> simp [Decoded.mnemonics]

/-- Settles O11: of the ways a step answers a next state, only the rejected word has that outcome. -/
theorem unknownWordHaltsAtItsAddress : Obligations.UnknownWordHaltsAtItsAddress := by
  unfold Obligations.UnknownWordHaltsAtItsAddress
  refine ⟨fun s h => ?_, fun s t h ht => ?_⟩
  · obtain ⟨why, hf⟩ := (matchingRows_eq_nil_iff _).1 h
    exact step_of_reject hf
  · rcases step_cases h with ⟨why, hf, rfl⟩ | ⟨i, _, _, rfl⟩ | ⟨i, u, _, _, hn, rfl⟩
    · exact (matchingRows_eq_nil_iff _).2 ⟨why, hf⟩
    · cases ht
    · cases hn.outcome.symm.trans ht

/-- At an unmapped PC the zero word is fetched, which is `sll $0,$0,0`. -/
theorem State.fetched_of_unmapped {s : State} (h : s.map.mapped s.cur.pc.toNat = false) :
    s.fetched = .instr (.sll 0 0 0) := by
  have hz : s.read32 s.cur.pc = 0 := by simp [State.read32, h]
  rw [State.fetched, hz]
  decide

/-- The no-op writes 0 to register 0, which the step has already zeroed. -/
theorem exec_noop (s : State) : exec (.sll 0 0 0) s.beginStep = .next s.beginStep := by
  have hz : s.beginStep.x 0 = 0 := Arch.reg_setReg_same _ _ _
  have hx : s.beginStep.setX 0 0 = s.beginStep := by
    simp [State.setX, State.beginStep, Arch.setReg]
  change (.next (s.beginStep.setX 0 (s.beginStep.x 0 <<< 0)) : Result) = _
  rw [hz, BitVec.shiftLeft_zero, hx]

/-- Settles O18: the step runs the no-op in the prepared state. -/
theorem unmappedFetchIsANoOp : Obligations.UnmappedFetchIsANoOp := by
  unfold Obligations.UnmappedFetchIsANoOp
  intro s h
  refine ⟨s.beginStep.commit, ?_, rfl, rfl, rfl, rfl, rfl⟩
  rw [step_of_instr (State.fetched_of_unmapped h), exec_noop]
  rfl

end Sys2Proof.Machine
end

section
/-! SUPPORT. The shifts (R120 to R125), and the rules they share with every instruction of opcode 0 that writes one
register: how its words decode (R85, R88) and what the write leaves alone (R22). -/

namespace Sys2Proof

/-! Decoding. -/

/-- The word of an instruction, by whatever name it is written, decodes to the instruction. -/
theorem decodeWord_of_encode_eq {w : Word} {i : Instr} (h : encode i = w) : decodeWord w = .instr i :=
  h ▸ decodeWord_encode i

/-- Under opcode 0 the `funct` alone selects the arm of the dispatch (R85). -/
theorem decodesSpecial_of_decodeSpecial {funct : BitVec 6} {mk : Word → Instr}
    (h : ∀ w, decodeSpecial { decodeFields w with funct := funct } = .instr (mk w)) : DecodesSpecial funct mk := by
  rintro w hop rfl
  exact (decodeDispatch_of_opcode_zero hop).trans (h w)

/-- Settles O4: nine of the words are the encodings of their instructions; two match no row of the table. -/
theorem knownWordsDecode : Obligations.KnownWordsDecode := by
  unfold Obligations.KnownWordsDecode
  refine ⟨?sll, ?jalr, ?mult, ?addu, ?j, ?beq, ?addiu, ?lb, ?sw, ?unassignedFunct, ?unassignedRegimm⟩
  case unassignedFunct | unassignedRegimm => decide
  all_goals exact decodeWord_of_encode_eq (by decide)

end Sys2Proof

namespace Sys2Proof.Machine

/-! Writing one register. -/

/-- A register write changes nothing but the register (R13, R31). -/
theorem State.setX_onlyWritesReg (s : State) (r : Reg) (v : Word) : OnlyWritesReg r v s (s.setX r v) := by
  have hother : ∀ q, q ∉ [r] → (s.setX r v).nxt.reg q = s.nxt.reg q := fun q hq =>
    Arch.reg_setReg_ne _ _ (List.ne_of_not_mem_cons hq)
  exact ⟨Arch.reg_setReg_same _ _ _, ⟨rfl, rfl, rfl, hother⟩, ⟨rfl, rfl⟩, fun _ => rfl, ⟨rfl, rfl⟩, rfl⟩

/-- An instruction that answers one register write completes and changes nothing but the register. -/
theorem exec_onlyWritesReg {i : Instr} {s : State} {r : Reg} {v : Word} (h : exec i s = .next (s.setX r v)) :
    ∃ t, exec i s = .next t ∧ OnlyWritesReg r v s t :=
  ⟨_, h, s.setX_onlyWritesReg r v⟩

/-! The shifts. -/

/-- The low five bits of a register are its value modulo 32 (R83, R123). -/
theorem shiftAmountVar_eq_mod (v : Word) : shiftAmountVar v = v.toNat % 32 := by
  rw [shiftAmountVar, BitVec.toNat_and]
  exact Nat.and_two_pow_sub_one_eq_mod v.toNat 5

/-- Settles O27: each arm is a register write of the value the rule names. -/
theorem immediateShifts : Obligations.ImmediateShifts := by
  unfold Obligations.ImmediateShifts
  refine ⟨?decodeSll, ?decodeSrl, ?decodeSra, ?execSll, ?execSrl, ?execSra⟩
  case decodeSll | decodeSrl | decodeSra => exact decodesSpecial_of_decodeSpecial fun _ => rfl
  case execSll | execSrl | execSra => exact fun _ _ _ _ => exec_onlyWritesReg rfl

/-- Settles O28: as for the immediate shifts, with the amount read modulo 32. -/
theorem variableShifts : Obligations.VariableShifts := by
  unfold Obligations.VariableShifts
  simp only [← shiftAmountVar_eq_mod]
  refine ⟨?decodeSllv, ?decodeSrlv, ?decodeSrav, ?execSllv, ?execSrlv, ?execSrav⟩
  case decodeSllv | decodeSrlv | decodeSrav => exact decodesSpecial_of_decodeSpecial fun _ => rfl
  case execSllv | execSrlv | execSrav => exact fun _ _ _ _ => exec_onlyWritesReg rfl

end Sys2Proof.Machine
end

section
/-! SUPPORT. The register jumps and SYSCALL (R130 to R132), and the rules they share with the other instructions that
write the PC or check an alignment: what a jump, a link with a jump, and the error path leave alone (R190, R272). -/

namespace Sys2Proof.Machine

/-! Writing the PC. -/

/-- A jump changes nothing but the next PC (R13, R190). -/
theorem State.jumpTo_onlyJumps (s : State) (p : Word) : OnlyJumps p s (s.jumpTo p) :=
  ⟨rfl, ⟨rfl, rfl, rfl, fun _ _ => rfl⟩, ⟨rfl, rfl⟩, fun _ => rfl, ⟨rfl, rfl⟩⟩

/-- A link followed by a jump changes nothing but the linked register and the next PC (R131, R181). -/
theorem State.setX_jumpTo_onlyLinksAndJumps (s : State) (r : Reg) (v p : Word) :
    OnlyLinksAndJumps r v p s ((s.setX r v).jumpTo p) := by
  obtain ⟨hlink, hregs, hhilo, hmem, hrun, -⟩ := s.setX_onlyWritesReg r v
  exact ⟨rfl, hlink, hregs, hhilo, hmem, hrun⟩

/-! The error path. -/

/-- Raising UnalignedAddress writes no register and no memory (R272, R278). -/
theorem State.raise_onlyHaltsUnaligned (s : State) : OnlyHaltsUnaligned s (s.raise .unalignedAddress) :=
  ⟨rfl, rfl, rfl, ⟨rfl, rfl, rfl, fun _ _ => rfl⟩, ⟨rfl, rfl⟩, fun _ => rfl⟩

/-- An instruction that meets a misaligned address or target halts there and changes nothing else (R272). -/
theorem exec_onlyHaltsUnaligned {i : Instr} {s : State} (h : misaligned s.cur.reg i) :
    ∃ t, exec i s = .next t ∧ OnlyHaltsUnaligned s t :=
  ⟨_, exec_misaligned h, s.raise_onlyHaltsUnaligned⟩

/-! The register jumps at an aligned target, and SYSCALL. -/

theorem exec_jr_of_aligned {rs : Reg} {s : State} (h : (s.cur.reg rs).extractLsb' 0 2 = 0#2) :
    exec (.jr rs) s = .next (s.jumpTo (s.cur.reg rs)) :=
  if_pos ((aligned4_iff_lowBits _).2 h)

theorem exec_jalr_of_aligned {rd rs : Reg} {s : State} (h : (s.cur.reg rs).extractLsb' 0 2 = 0#2) :
    exec (.jalr rd rs) s = .next ((s.setX rd (s.cur.pc + 4)).jumpTo (s.cur.reg rs)) :=
  if_pos ((aligned4_iff_lowBits _).2 h)

theorem exec_syscall (s : State) : exec .syscall s = .next (s.setX 2 0x0000000A).halt := rfl

/-- Settles O29: the alignment of x[rs] decides between the jump and the error path. -/
theorem jumpRegister : Obligations.JumpRegister := by
  unfold Obligations.JumpRegister
  refine ⟨?decode, ?aligned, ?misaligned⟩
  case decode => exact decodesSpecial_of_decodeSpecial fun _ => rfl
  case aligned => exact fun rs s h => ⟨_, exec_jr_of_aligned h, s.jumpTo_onlyJumps (s.cur.reg rs)⟩
  case misaligned => exact fun rs _ h => exec_onlyHaltsUnaligned (i := .jr rs) h

/-- Settles O30: the target is read from the committed buffer, so the link into `rd` cannot change it (R31). -/
theorem jumpAndLinkRegister : Obligations.JumpAndLinkRegister := by
  unfold Obligations.JumpAndLinkRegister
  refine ⟨?decode, ?aligned, ?misaligned⟩
  case decode => exact decodesSpecial_of_decodeSpecial fun _ => rfl
  case aligned =>
    exact fun rd rs s h => ⟨_, exec_jalr_of_aligned h, s.setX_jumpTo_onlyLinksAndJumps rd _ (s.cur.reg rs)⟩
  case misaligned => exact fun rd rs _ h => exec_onlyHaltsUnaligned (i := .jalr rd rs) h

/-- Settles O31: a write of register 2, and a halt that touches the run flag alone. -/
theorem systemCallHalts : Obligations.SystemCallHalts := by
  unfold Obligations.SystemCallHalts
  refine ⟨?decode, ?halt⟩
  case decode => exact decodesSpecial_of_decodeSpecial fun _ => rfl
  case halt =>
    intro s
    obtain ⟨hcode, hregs, hhilo, hmem, ⟨-, houtcome⟩, hpc⟩ := s.setX_onlyWritesReg 2 0x0000000A
    exact ⟨_, exec_syscall s, hcode, rfl, houtcome, hregs, hhilo, hmem, hpc⟩

end Sys2Proof.Machine
end

section
/-! SUPPORT. The accumulators: HI/LO transfer, multiply and divide (R140 to R147). What writing HI and LO leaves alone
(R23), the product read back from its two halves, and the divides as truncated and unsigned division of words. -/

namespace Sys2Proof.Machine

/-! Writing HI and LO. -/

/-- A write of HI changes nothing but HI (R13, R23). -/
theorem State.setHi_onlyWritesHiLo (s : State) (v : Word) : OnlyWritesHiLo v s.nxt.lo s (s.setHi v) :=
  ⟨rfl, rfl, ⟨rfl, rfl, rfl, fun _ _ => rfl⟩, fun _ => rfl, ⟨rfl, rfl⟩, rfl⟩

/-- A write of LO changes nothing but LO (R13, R23). -/
theorem State.setLo_onlyWritesHiLo (s : State) (v : Word) : OnlyWritesHiLo s.nxt.hi v s (s.setLo v) :=
  ⟨rfl, rfl, ⟨rfl, rfl, rfl, fun _ _ => rfl⟩, fun _ => rfl, ⟨rfl, rfl⟩, rfl⟩

/-- A product goes to HI and LO, 32 bits each, and changes nothing else. -/
theorem State.setProduct_onlyWritesHiLo (s : State) (p : Int) :
    OnlyWritesHiLo ((BitVec.ofInt 64 p).extractLsb' 32 32) ((BitVec.ofInt 64 p).extractLsb' 0 32) s (s.setProduct p) :=
  ⟨rfl, rfl, ⟨rfl, rfl, rfl, fun _ _ => rfl⟩, fun _ => rfl, ⟨rfl, rfl⟩, rfl⟩

/-- A quotient goes to LO and a remainder to HI, and nothing else changes. -/
theorem State.setQuotient_onlyWritesHiLo (s : State) (q r : Int) :
    OnlyWritesHiLo (BitVec.ofInt 32 r) (BitVec.ofInt 32 q) s (s.setQuotient q r) :=
  ⟨rfl, rfl, ⟨rfl, rfl, rfl, fun _ _ => rfl⟩, fun _ => rfl, ⟨rfl, rfl⟩, rfl⟩

/-- A quotient and a remainder that are signed words go to LO and HI as they are. -/
theorem State.setQuotient_toInt_onlyWritesHiLo (s : State) (q r : Word) :
    OnlyWritesHiLo r q s (s.setQuotient q.toInt r.toInt) := by
  simpa only [BitVec.ofInt_toInt] using s.setQuotient_onlyWritesHiLo q.toInt r.toInt

/-- A quotient and a remainder that are unsigned words go to LO and HI as they are. -/
theorem State.setQuotient_toNat_onlyWritesHiLo (s : State) (q r : Word) :
    OnlyWritesHiLo r q s (s.setQuotient q.toNat r.toNat) := by
  simpa only [BitVec.ofInt_natCast, BitVec.ofNat_toNat, BitVec.setWidth_eq]
    using s.setQuotient_onlyWritesHiLo q.toNat r.toNat

/-! The products: two words multiply within 64 bits, so nothing is lost between HI and LO. -/

theorem exec_mult (rs rt : Reg) (s : State) :
    exec (.mult rs rt) s = .next (s.setProduct ((s.cur.reg rs).toInt * (s.cur.reg rt).toInt)) := rfl

theorem exec_multu (rs rt : Reg) (s : State) :
    exec (.multu rs rt) s = .next (s.setProduct ((s.cur.reg rs).toNat * (s.cur.reg rt).toNat : Nat)) := rfl

/-- The upper and the lower word of a 64-bit value make up the value. -/
theorem upper_append_lower (p : BitVec 64) : p.extractLsb' 32 32 ++ p.extractLsb' 0 32 = p :=
  (BitVec.extractLsb'_append_extractLsb'_eq_extractLsb' rfl).trans BitVec.extractLsb'_eq_self

/-- The signed product of two words is a signed 64-bit value. -/
theorem toInt_ofInt_mul (v w : Word) : (BitVec.ofInt 64 (v.toInt * w.toInt)).toInt = v.toInt * w.toInt := by
  have hlo : -2 ^ 62 ≤ v.toInt * w.toInt := BitVec.le_toInt_mul_toInt
  have hhi : v.toInt * w.toInt ≤ 2 ^ 62 := BitVec.toInt_mul_toInt_le
  exact BitVec.toInt_ofInt_eq_self (by decide) (by omega) (by omega)

/-- The unsigned product of two words is an unsigned 64-bit value. -/
theorem toNat_ofInt_mul (v w : Word) : (BitVec.ofInt 64 (v.toNat * w.toNat : Nat)).toNat = v.toNat * w.toNat := by
  rw [BitVec.ofInt_natCast, BitVec.toNat_ofNat]
  exact Nat.mod_eq_of_lt BitVec.toNat_mul_toNat_lt

/-- Settles O34: the two halves make up the 64-bit word of the product, which holds the product exactly. -/
theorem multiplyGivesTheExactProduct : Obligations.MultiplyGivesTheExactProduct := by
  unfold Obligations.MultiplyGivesTheExactProduct
  refine ⟨?decodeMult, ?decodeMultu, ?execMult, ?execMultu⟩
  case decodeMult | decodeMultu => exact decodesSpecial_of_decodeSpecial fun _ => rfl
  case execMult =>
    intro rs rt s
    refine ⟨_, _, _, exec_mult rs rt s, s.setProduct_onlyWritesHiLo _, ?_⟩
    rw [upper_append_lower, toInt_ofInt_mul]
  case execMultu =>
    intro rs rt s
    refine ⟨_, _, _, exec_multu rs rt s, s.setProduct_onlyWritesHiLo _, ?_⟩
    rw [upper_append_lower, toNat_ofInt_mul]

/-! The divides. Where DIV is defined the quotient fits in a word, so LO and HI are the words of the truncated division
and its remainder. -/

/-- A divide that is no undefined divide leaves the truncated quotient and its remainder, as words (R146, D19). -/
theorem exec_div_of_defined {rs rt : Reg} {s : State} (h : ¬ undefinedDivide s.cur.reg (.div rs rt)) :
    exec (.div rs rt) s = .next (s.setQuotient ((s.cur.reg rs).sdiv (s.cur.reg rt)).toInt
      ((s.cur.reg rs).srem (s.cur.reg rt)).toInt) := by
  obtain ⟨hzero, hoverflow⟩ := not_or.1 h
  have hq := BitVec.toInt_sdiv_of_ne_or_ne (s.cur.reg rs) (s.cur.reg rt) (not_and_or.1 hoverflow)
  rw [hq, BitVec.toInt_srem, Int.tmod_def, mul_comm]
  exact (if_neg hzero).trans (if_neg hoverflow)

/-- A divide by a divisor that is not 0 leaves the unsigned quotient and remainder, as words (R147). -/
theorem exec_divu_of_ne_zero {rs rt : Reg} {s : State} (h : s.cur.reg rt ≠ 0) :
    exec (.divu rs rt) s = .next (s.setQuotient (s.cur.reg rs / s.cur.reg rt).toNat
      (s.cur.reg rs % s.cur.reg rt).toNat) := by
  rw [BitVec.toNat_udiv, BitVec.toNat_umod]
  exact if_neg h

/-- The remainder of the truncated division is 0 or has the dividend's sign. -/
theorem tmod_mul_self_nonneg (a b : Int) : 0 ≤ a.tmod b * a := by
  rcases le_total 0 a with ha | ha
  · exact mul_nonneg (Int.tmod_nonneg b ha) ha
  · have hneg : 0 ≤ (-a).tmod b := Int.tmod_nonneg b (Int.neg_nonneg_of_nonpos ha)
    rw [Int.neg_tmod] at hneg
    exact mul_nonneg_of_nonpos_of_nonpos (Int.neg_nonneg.1 hneg) ha

/-- The remainder of the truncated division is smaller in size than a divisor that is not 0. -/
theorem natAbs_tmod_lt (a : Int) {b : Int} (hb : b ≠ 0) : (a.tmod b).natAbs < b.natAbs := by
  rw [Int.natAbs_tmod]
  exact Nat.mod_lt _ (Int.natAbs_pos.2 hb)

/-- Settles O35: DIV is the truncated division of words, whose remainder is smaller in size than the divisor and has the
dividend's sign. -/
theorem signedDivideTruncates : Obligations.SignedDivideTruncates := by
  unfold Obligations.SignedDivideTruncates
  refine ⟨?decode, ?defined, ?undefined⟩
  case decode => exact decodesSpecial_of_decodeSpecial fun _ => rfl
  case undefined => exact fun rs rt _ h => exec_undefinedDivide (i := .div rs rt) h
  case defined =>
    intro rs rt s hzero hoverflow
    have hdivisor : (s.cur.reg rt).toInt ≠ 0 := fun h => hzero (BitVec.toInt_inj.1 h)
    refine ⟨_, _, _, exec_div_of_defined (not_or.2 ⟨hzero, hoverflow⟩),
      s.setQuotient_toInt_onlyWritesHiLo _ _, ?_⟩
    rw [BitVec.toInt_srem, BitVec.toInt_sdiv_of_ne_or_ne _ _ (not_and_or.1 hoverflow)]
    exact ⟨(Int.tdiv_mul_add_tmod _ _).symm, natAbs_tmod_lt _ hdivisor, tmod_mul_self_nonneg _ _⟩

/-- Settles O36: DIVU is the unsigned division of words. -/
theorem unsignedDivide : Obligations.UnsignedDivide := by
  unfold Obligations.UnsignedDivide
  refine ⟨?decode, ?defined, ?undefined⟩
  case decode => exact decodesSpecial_of_decodeSpecial fun _ => rfl
  case undefined => exact fun rs rt _ h => exec_undefinedDivide (i := .divu rs rt) h
  case defined =>
    intro rs rt s hzero
    have hdivisor : 0 < (s.cur.reg rt).toNat := Nat.pos_of_ne_zero (BitVec.toNat_ne.1 hzero)
    refine ⟨_, _, _, exec_divu_of_ne_zero hzero, s.setQuotient_toNat_onlyWritesHiLo _ _, ?_⟩
    rw [BitVec.toNat_udiv, BitVec.toNat_umod]
    exact ⟨(Nat.div_add_mod' _ _).symm, Nat.mod_lt _ hdivisor⟩

/-! The transfers. -/

/-- Settles O32: each arm is a register write of the accumulator. -/
theorem moveFromHiAndLo : Obligations.MoveFromHiAndLo := by
  unfold Obligations.MoveFromHiAndLo
  refine ⟨?decodeMfhi, ?decodeMflo, ?execMfhi, ?execMflo⟩
  case decodeMfhi | decodeMflo => exact decodesSpecial_of_decodeSpecial fun _ => rfl
  case execMfhi | execMflo => exact fun _ _ => exec_onlyWritesReg rfl

/-- Settles O33: each arm is a write of one accumulator, which leaves the other as it is. -/
theorem moveToHiAndLo : Obligations.MoveToHiAndLo := by
  unfold Obligations.MoveToHiAndLo
  refine ⟨?decodeMthi, ?decodeMtlo, ?execMthi, ?execMtlo⟩
  case decodeMthi | decodeMtlo => exact decodesSpecial_of_decodeSpecial fun _ => rfl
  case execMthi => exact fun rs s => ⟨_, rfl, s.setHi_onlyWritesHiLo (s.cur.reg rs)⟩
  case execMtlo => exact fun rs s => ⟨_, rfl, s.setLo_onlyWritesHiLo (s.cur.reg rs)⟩

end Sys2Proof.Machine
end

section
/-! SUPPORT. The register arithmetic and logic (R160 to R169) and ADDI (R210), and the rules they share with the immediate
forms: how the words of an opcode of its own decode (R84, R89), and the 1 or 0 that a comparison gives. -/

namespace Sys2Proof

/-- Where `funct` and `rt` select nothing, the opcode alone selects the arm of the dispatch (R84). -/
theorem decodesOpcode_of_decodeDispatch {opcode : BitVec 6} {mk : Word → Instr}
    (h : ∀ w, decodeDispatch { decodeFields w with opcode := opcode } = .instr (mk w)) : DecodesOpcode opcode mk := by
  rintro w rfl
  exact h w

end Sys2Proof

namespace Sys2Proof.Machine

/-! Comparing. -/

/-- The word that a comparison gives is exactly 1 or 0 (R12, R168, R169). -/
theorem bool32_decide (p : Prop) [Decidable p] : bool32 (decide p) = if p then 1 else 0 := by
  simp [bool32]

/-! The instructions. -/

/-- Settles O37: each arm is a register write of the sum or the difference of words. -/
theorem unsignedAddAndSubtractWrap : Obligations.UnsignedAddAndSubtractWrap := by
  unfold Obligations.UnsignedAddAndSubtractWrap
  refine ⟨?decodeAddu, ?decodeSubu, ?execAddu, ?execSubu⟩
  case decodeAddu | decodeSubu => exact decodesSpecial_of_decodeSpecial fun _ => rfl
  case execAddu | execSubu => exact fun _ _ _ _ => exec_onlyWritesReg rfl

/-- Settles O38: the arms check no overflow (D21), so they are register writes as those of ADDU and SUBU are. -/
theorem addAndSubtractDoNotTrap : Obligations.AddAndSubtractDoNotTrap := by
  unfold Obligations.AddAndSubtractDoNotTrap
  refine ⟨?decodeAdd, ?decodeSub, ?decodeAddi, ?execAdd, ?execSub, ?execAddi⟩
  case decodeAdd | decodeSub => exact decodesSpecial_of_decodeSpecial fun _ => rfl
  case decodeAddi => exact decodesOpcode_of_decodeDispatch fun _ => rfl
  case execAdd | execSub | execAddi => exact fun _ _ _ _ => exec_onlyWritesReg rfl

/-- Settles O39: each arm is a register write of the bitwise result. -/
theorem registerLogical : Obligations.RegisterLogical := by
  unfold Obligations.RegisterLogical
  refine ⟨?decodeAnd, ?decodeOr, ?decodeXor, ?decodeNor, ?execAnd, ?execOr, ?execXor, ?execNor⟩
  case decodeAnd | decodeOr | decodeXor | decodeNor => exact decodesSpecial_of_decodeSpecial fun _ => rfl
  case execAnd | execOr | execXor | execNor => exact fun _ _ _ _ => exec_onlyWritesReg rfl

/-- Settles O40: each arm is a register write of the comparison's 1 or 0. -/
theorem registerCompare : Obligations.RegisterCompare := by
  unfold Obligations.RegisterCompare
  simp only [← bool32_decide]
  refine ⟨?decodeSlt, ?decodeSltu, ?execSlt, ?execSltu⟩
  case decodeSlt | decodeSltu => exact decodesSpecial_of_decodeSpecial fun _ => rfl
  case execSlt | execSltu => exact fun _ _ _ _ => exec_onlyWritesReg rfl

end Sys2Proof.Machine
end

section
/-! SUPPORT. The J-type jumps (R180, R181): the masked target of the pseudocode is the segment, the field and two zero
bits put together. -/

namespace Sys2Proof.Machine

/-! The two masks of the pseudocode split a word at bit 28. -/

theorem getLsbD_segmentMask : ∀ i < 32, (0xF0000000#32).getLsbD i = decide (28 ≤ i) := by decide

theorem getLsbD_offsetMask : ∀ i < 32, (0x0FFFFFFF#32).getLsbD i = decide (i < 28) := by decide

/-- The masked jump target is the concatenation of R180: bits 0 and 1 are zero, the field stands in bits 2 to 27, and the
bits above are those of the PC. -/
theorem State.jumpTarget_eq_jtOf (s : State) (target : BitVec 26) : s.jumpTarget target = jtOf s target := by
  apply BitVec.eq_of_getLsbD_eq
  intro i hi
  rw [State.jumpTarget, State.pc, jtOf, BitVec.getLsbD_or, BitVec.getLsbD_and, BitVec.getLsbD_and,
    getLsbD_segmentMask i hi, getLsbD_offsetMask i hi, BitVec.getLsbD_append, BitVec.getLsbD_append]
  rcases lt_or_ge i 28 with hoffset | hsegment
  · rcases lt_or_ge i 2 with hlow | hfield
    · simp [hlow, hoffset]
    · have hbit : i - 2 < 26 := by omega
      simp [hi, hoffset, hoffset.not_ge, hfield.not_gt, hbit]
  · have hbit : ¬ i < 2 ∧ ¬ i - 2 < 26 ∧ i - 2 - 26 < 4 ∧ 28 + (i - 2 - 26) = i := by omega
    simp [hi, hsegment, hsegment.not_gt, hbit]

theorem exec_j (target : BitVec 26) (s : State) : exec (.j target) s = .next (s.jumpTo (jtOf s target)) := by
  rw [← s.jumpTarget_eq_jtOf]
  rfl

theorem exec_jal (target : BitVec 26) (s : State) :
    exec (.jal target) s = .next ((s.setX 31 (s.cur.pc + 4)).jumpTo (jtOf s target)) := by
  rw [← s.jumpTarget_eq_jtOf]
  rfl

/-- Settles O41: J is a jump, and JAL a link into register 31 followed by the same jump. -/
theorem jumpAndJumpAndLink : Obligations.JumpAndJumpAndLink := by
  unfold Obligations.JumpAndJumpAndLink
  refine ⟨?decodeJ, ?decodeJal, ?execJ, ?execJal⟩
  case decodeJ | decodeJal => exact decodesOpcode_of_decodeDispatch fun _ => rfl
  case execJ => exact fun target s => ⟨_, exec_j target s, s.jumpTo_onlyJumps (jtOf s target)⟩
  case execJal =>
    exact fun target s => ⟨_, exec_jal target s, s.setX_jumpTo_onlyLinksAndJumps 31 _ (jtOf s target)⟩

end Sys2Proof.Machine
end

section
/-! SUPPORT. The conditional branches (R190 to R199): a branch is a jump to the PC it leaves, taken or not, so what it
leaves alone is what a jump, or a link with a jump, leaves alone. -/

namespace Sys2Proof

/-- Under opcode 1 the `rt` alone selects the arm of the dispatch (R87). -/
theorem decodesRegimm_of_decodeRegimm {rt : BitVec 5} {mk : Word → Instr}
    (h : ∀ w, decodeRegimm { decodeFields w with rt := rt } = .instr (mk w)) : DecodesRegimm rt mk := by
  rintro w hop rfl
  exact (decodeDispatch_of_opcode_one hop).trans (h w)

end Sys2Proof

namespace Sys2Proof.Machine

/-! The conditions, each as the comparison of signed values that the rule names (D12). -/

theorem isNegative_iff (v : Word) : isNegative v = true ↔ v.toInt < 0 := decide_eq_true_iff

theorem not_isNegative_iff (v : Word) : (!isNegative v) = true ↔ 0 ≤ v.toInt := by
  rw [Bool.not_eq_true', ← Bool.not_eq_true, isNegative_iff, not_lt]

theorem isNonPositive_iff (v : Word) : isNonPositive v = true ↔ v.toInt ≤ 0 := decide_eq_true_iff

theorem not_isNonPositive_iff (v : Word) : (!isNonPositive v) = true ↔ 0 < v.toInt := by
  rw [Bool.not_eq_true', ← Bool.not_eq_true, isNonPositive_iff, not_le]

/-! Branching. -/

section
variable {s : State} {i : Instr} {c : Bool} {p : Prop} [Decidable p] {imm : BitVec 16}

/-- A branch not taken jumps to where fetch had already left the next PC (R190, R191). -/
theorem State.branchIf_eq_jumpTo (h : c = true ↔ p) : s.branchIf c imm = s.jumpTo (branchPc s p imm) := by
  rw [State.branchIf, branchPc]
  by_cases hp : p
  · rw [if_pos (h.2 hp), if_pos hp]
    rfl
  · rw [if_neg (mt h.1 hp), if_neg hp]
    rfl

/-- A link writes no PC, so the branch after it goes where it would have gone without it (R194, R195). -/
theorem branchPc_setX (r : Reg) (v : Word) : branchPc (s.setX r v) p imm = branchPc s p imm := rfl

/-- An instruction that answers a branch completes and changes nothing but the next PC. -/
theorem exec_onlyJumps_of_branchIf (hexec : exec i s = .next (s.branchIf c imm)) (hc : c = true ↔ p) :
    ∃ t, exec i s = .next t ∧ OnlyJumps (branchPc s p imm) s t := by
  rw [State.branchIf_eq_jumpTo hc] at hexec
  exact ⟨_, hexec, s.jumpTo_onlyJumps _⟩

/-- An instruction that answers a link and a branch links whether or not it branches, and changes nothing but the linked
register and the next PC (D11). -/
theorem exec_onlyLinksAndJumps_of_branchIf {r : Reg} {v : Word}
    (hexec : exec i s = .next ((s.setX r v).branchIf c imm)) (hc : c = true ↔ p) :
    ∃ t, exec i s = .next t ∧ OnlyLinksAndJumps r v (branchPc s p imm) s t := by
  rw [State.branchIf_eq_jumpTo hc, branchPc_setX] at hexec
  exact ⟨_, hexec, s.setX_jumpTo_onlyLinksAndJumps r v _⟩

end

/-- Settles O42: each arm is a branch on the comparison of the two registers. -/
theorem branchOnEquality : Obligations.BranchOnEquality := by
  unfold Obligations.BranchOnEquality
  refine ⟨?decodeBeq, ?decodeBne, ?execBeq, ?execBne⟩
  case decodeBeq | decodeBne => exact decodesOpcode_of_decodeDispatch fun _ => rfl
  case execBeq => exact fun _ _ _ _ => exec_onlyJumps_of_branchIf rfl beq_iff_eq
  case execBne => exact fun _ _ _ _ => exec_onlyJumps_of_branchIf rfl bne_iff_ne

/-- Settles O43: each arm is a branch on a sign test, which is the signed comparison with zero. -/
theorem branchOnSign : Obligations.BranchOnSign := by
  unfold Obligations.BranchOnSign
  refine ⟨?decodeBltz, ?decodeBgez, ?decodeBlez, ?decodeBgtz, ?execBltz, ?execBgez, ?execBlez, ?execBgtz⟩
  case decodeBltz | decodeBgez => exact decodesRegimm_of_decodeRegimm fun _ => rfl
  case decodeBlez | decodeBgtz => exact decodesOpcode_of_decodeDispatch fun _ => rfl
  case execBltz => exact fun _ _ _ => exec_onlyJumps_of_branchIf rfl (isNegative_iff _)
  case execBgez => exact fun _ _ _ => exec_onlyJumps_of_branchIf rfl (not_isNegative_iff _)
  case execBlez => exact fun _ _ _ => exec_onlyJumps_of_branchIf rfl (isNonPositive_iff _)
  case execBgtz => exact fun _ _ _ => exec_onlyJumps_of_branchIf rfl (not_isNonPositive_iff _)

/-- Settles O44: the sign is that of the committed register, which the link into register 31 cannot change (R31). -/
theorem branchAndLink : Obligations.BranchAndLink := by
  unfold Obligations.BranchAndLink
  refine ⟨?decodeBltzal, ?decodeBgezal, ?execBltzal, ?execBgezal⟩
  case decodeBltzal | decodeBgezal => exact decodesRegimm_of_decodeRegimm fun _ => rfl
  case execBltzal => exact fun _ _ _ => exec_onlyLinksAndJumps_of_branchIf rfl (isNegative_iff _)
  case execBgezal => exact fun _ _ _ => exec_onlyLinksAndJumps_of_branchIf rfl (not_isNegative_iff _)

end Sys2Proof.Machine
end

section
/-! SUPPORT. The immediate arithmetic and logic (R211 to R217): the register forms' rules, with the second operand built
from the immediate. -/

namespace Sys2Proof.Machine

/-- Settles O45: the arm is a register write of the sum with the sign-extended immediate, as that of ADDI is. -/
theorem addImmediateUnsigned : Obligations.AddImmediateUnsigned := by
  unfold Obligations.AddImmediateUnsigned
  refine ⟨?decode, ?exec⟩
  case decode => exact decodesOpcode_of_decodeDispatch fun _ => rfl
  case exec => exact fun _ _ _ _ => exec_onlyWritesReg rfl

/-- Settles O46: each arm is a register write of the comparison's 1 or 0, both with the sign-extended immediate. -/
theorem compareImmediate : Obligations.CompareImmediate := by
  unfold Obligations.CompareImmediate
  simp only [← bool32_decide]
  refine ⟨?decodeSlti, ?decodeSltiu, ?execSlti, ?execSltiu⟩
  case decodeSlti | decodeSltiu => exact decodesOpcode_of_decodeDispatch fun _ => rfl
  case execSlti | execSltiu => exact fun _ _ _ _ => exec_onlyWritesReg rfl

/-- Zero extension puts sixteen zero bits above the immediate (R12, R83). -/
theorem unsignedImm_eq_append (imm : BitVec 16) : unsignedImm imm = 0#16 ++ imm :=
  BitVec.setWidth_eq_append (by decide)

/-- Settles O47: each arm is a register write of the bitwise result with the zero-extended immediate. -/
theorem logicalImmediate : Obligations.LogicalImmediate := by
  unfold Obligations.LogicalImmediate
  simp only [← unsignedImm_eq_append]
  refine ⟨?decodeAndi, ?decodeOri, ?decodeXori, ?execAndi, ?execOri, ?execXori⟩
  case decodeAndi | decodeOri | decodeXori => exact decodesOpcode_of_decodeDispatch fun _ => rfl
  case execAndi | execOri | execXori => exact fun _ _ _ _ => exec_onlyWritesReg rfl

/-- Settles O48: the arm is a register write of the immediate above sixteen zero bits, which reads no register. -/
theorem loadUpperImmediate : Obligations.LoadUpperImmediate := by
  unfold Obligations.LoadUpperImmediate
  refine ⟨?decode, ?exec⟩
  case decode => exact decodesOpcode_of_decodeDispatch fun _ => rfl
  case exec => exact fun _ _ _ => exec_onlyWritesReg rfl

end Sys2Proof.Machine
end

section
/-! SUPPORT. The loads and the stores (R230 to R236, R250 to R253): a sub-word access goes through the containing word
(R66, R67), whose four bytes are mapped together under a well-formed map, so it reads and writes single bytes. -/

namespace Sys2Proof.Machine

/-! What a load reads. -/

/-- The four byte lanes of a word in memory, in one rule (R64). -/
theorem Memory.wordAt_lane (m : Memory) (a : Nat) {k : Nat} (hk : k < 4) :
    (m.wordAt a).extractLsb' (8 * k) 8 = m.byteAt (a + k) := by
  match k, hk with
  | 0, _ => exact wordOfBytes_lane0 _ _ _ _
  | 1, _ => exact wordOfBytes_lane1 _ _ _ _
  | 2, _ => exact wordOfBytes_lane2 _ _ _ _
  | 3, _ => exact wordOfBytes_lane3 _ _ _ _

/-- Byte `k` of the word read at an aligned address is the byte seen at address `a + k` (R61, R63, R64). -/
theorem State.read32_lane {s : State} (hmap : s.map.wellFormed = true) {a : Word} (ha : aligned4 a = true) {k : Nat}
    (hk : k < 4) : (s.read32 a).extractLsb' (8 * k) 8 = s.byteSeen (a.toNat + k) := by
  rw [State.read32, State.byteSeen, mapped_lane hmap ((aligned4_iff a).1 ha) hk]
  split
  · exact Memory.wordAt_lane _ _ hk
  · exact BitVec.extractLsb'_zero

/-- The byte at a lane of the containing word is the byte seen at the lane's address (R66). -/
theorem State.containingWord_lane {s : State} (hmap : s.map.wellFormed = true) (a : Word) {k : Nat}
    (hk : a.toNat % 4 + k < 4) :
    (s.read32 (wordAddr a)).extractLsb' (laneShift a + 8 * k) 8 = s.byteSeen (a.toNat + k) := by
  have haddr : a.toNat / 4 * 4 + (a.toNat % 4 + k) = a.toNat + k := by omega
  rw [laneShift_eq, ← Nat.mul_add, State.read32_lane hmap (aligned4_wordAddr a) hk, toNat_wordAddr, haddr]

theorem State.memRead8_eq_byteSeen {s : State} (hmap : s.map.wellFormed = true) (a : Word) :
    s.memRead8 a = s.byteSeen a.toNat :=
  State.containingWord_lane hmap a (k := 0) (Nat.mod_lt _ (by decide))

theorem State.memRead16_eq_byteSeen {s : State} (hmap : s.map.wellFormed = true) {a : Word} (ha : aligned2 a = true) :
    s.memRead16 a = s.byteSeen (a.toNat + 1) ++ s.byteSeen a.toNat := by
  rw [aligned2_iff] at ha
  rw [← State.memRead8_eq_byteSeen hmap, ← State.containingWord_lane hmap a (k := 1) (by omega), State.memRead16,
    State.memRead8]
  exact (BitVec.extractLsb'_append_extractLsb'_eq_extractLsb' (len₁ := 8) (len₂ := 8) rfl).symm

theorem State.memRead32_eq_byteSeen {s : State} (hmap : s.map.wellFormed = true) {a : Word} (ha : aligned4 a = true) :
    s.memRead32 a = s.byteSeen (a.toNat + 3) ++ s.byteSeen (a.toNat + 2) ++ s.byteSeen (a.toNat + 1) ++
      s.byteSeen a.toNat := by
  have hlane {k : Nat} (hk : k < 4) := (State.read32_lane hmap ha hk).symm
  have hlane0 : s.byteSeen a.toNat = (s.read32 a).extractLsb' 0 8 := hlane (k := 0) (by decide)
  rw [hlane (k := 1) (by decide), hlane (k := 2) (by decide), hlane (k := 3) (by decide), hlane0]
  exact (wordOfBytes_extract _).symm

/-! The loads. -/

section
variable {s : State} {rt rs : Reg} {imm : BitVec 16} (hmap : s.map.wellFormed = true)
include hmap

theorem exec_lb : exec (.lb rt rs imm) s =
    .next (s.setX rt ((s.byteSeen (eaOf s rs imm).toNat).signExtend 32)) := by
  rw [← State.memRead8_eq_byteSeen hmap]
  rfl

theorem exec_lbu : exec (.lbu rt rs imm) s = .next (s.setX rt (0#24 ++ s.byteSeen (eaOf s rs imm).toNat)) := by
  have hext : (s.memRead8 (eaOf s rs imm)).setWidth 32 = 0#24 ++ s.memRead8 (eaOf s rs imm) :=
    BitVec.setWidth_eq_append (by decide)
  rw [← State.memRead8_eq_byteSeen hmap, ← hext]
  rfl

theorem exec_lh_of_aligned (ha : (eaOf s rs imm).extractLsb' 0 1 = 0#1) : exec (.lh rt rs imm) s =
    .next (s.setX rt ((s.byteSeen ((eaOf s rs imm).toNat + 1) ++ s.byteSeen (eaOf s rs imm).toNat).signExtend 32)) := by
  rw [← aligned2_iff_lowBits] at ha
  rw [← State.memRead16_eq_byteSeen hmap ha]
  exact if_pos ha

theorem exec_lhu_of_aligned (ha : (eaOf s rs imm).extractLsb' 0 1 = 0#1) : exec (.lhu rt rs imm) s =
    .next (s.setX rt (0#16 ++ (s.byteSeen ((eaOf s rs imm).toNat + 1) ++ s.byteSeen (eaOf s rs imm).toNat))) := by
  rw [← aligned2_iff_lowBits] at ha
  have hext : (s.memRead16 (eaOf s rs imm)).setWidth 32 = 0#16 ++ s.memRead16 (eaOf s rs imm) :=
    BitVec.setWidth_eq_append (by decide)
  rw [← State.memRead16_eq_byteSeen hmap ha, ← hext]
  exact if_pos ha

theorem exec_lw_of_aligned (ha : (eaOf s rs imm).extractLsb' 0 2 = 0#2) : exec (.lw rt rs imm) s =
    .next (s.setX rt (s.byteSeen ((eaOf s rs imm).toNat + 3) ++ s.byteSeen ((eaOf s rs imm).toNat + 2) ++
      s.byteSeen ((eaOf s rs imm).toNat + 1) ++ s.byteSeen (eaOf s rs imm).toNat)) := by
  rw [← aligned4_iff_lowBits] at ha
  rw [← State.memRead32_eq_byteSeen hmap ha]
  exact if_pos ha

end

/-- Settles O49: each arm is a register write of the byte seen at the address, extended to a word. -/
theorem loadByte : Obligations.LoadByte := by
  unfold Obligations.LoadByte
  refine ⟨?decodeLb, ?decodeLbu, ?execLb, ?execLbu⟩
  case decodeLb | decodeLbu => exact decodesOpcode_of_decodeDispatch fun _ => rfl
  case execLb => exact fun _ _ _ _ hmap => exec_onlyWritesReg (exec_lb hmap)
  case execLbu => exact fun _ _ _ _ hmap => exec_onlyWritesReg (exec_lbu hmap)

/-- Settles O50: the parity of the address decides between the register write and the error path. -/
theorem loadHalfword : Obligations.LoadHalfword := by
  unfold Obligations.LoadHalfword
  refine ⟨?decodeLh, ?decodeLhu, ?execLh, ?execLhu, ?oddLh, ?oddLhu⟩
  case decodeLh | decodeLhu => exact decodesOpcode_of_decodeDispatch fun _ => rfl
  case execLh => exact fun _ _ _ _ hmap ha => exec_onlyWritesReg (exec_lh_of_aligned hmap ha)
  case execLhu => exact fun _ _ _ _ hmap ha => exec_onlyWritesReg (exec_lhu_of_aligned hmap ha)
  case oddLh => exact fun rt rs imm _ h => exec_onlyHaltsUnaligned (i := .lh rt rs imm) h
  case oddLhu => exact fun rt rs imm _ h => exec_onlyHaltsUnaligned (i := .lhu rt rs imm) h

/-- Settles O51: the low two bits of the address decide between the register write and the error path. -/
theorem loadWord : Obligations.LoadWord := by
  unfold Obligations.LoadWord
  refine ⟨?decode, ?aligned, ?misaligned⟩
  case decode => exact decodesOpcode_of_decodeDispatch fun _ => rfl
  case aligned => exact fun _ _ _ _ hmap ha => exec_onlyWritesReg (exec_lw_of_aligned hmap ha)
  case misaligned => exact fun rt rs imm _ h => exec_onlyHaltsUnaligned (i := .lw rt rs imm) h

/-! What a store writes. -/

/-- Merging the low `n` bytes of `v` into a word from byte `d` on replaces these bytes and keeps the others (R67). -/
theorem mergedWord_lane {old v mask : Word} {d n k : Nat} (hmask : ∀ i < 32, mask.getLsbD i = decide (i < 8 * n))
    (hk : k < 4) :
    ((old &&& ~~~(mask <<< (8 * d))) ||| ((v <<< (8 * d)) &&& (mask <<< (8 * d)))).extractLsb' (8 * k) 8 =
      if d ≤ k ∧ k < d + n then v.extractLsb' (8 * (k - d)) 8 else old.extractLsb' (8 * k) 8 := by
  apply BitVec.eq_of_getLsbD_eq
  intro i hi
  have hbit : 8 * k + i < 32 := by omega
  have hselect := hmask (8 * k + i - 8 * d) (by omega)
  rw [apply_ite (BitVec.getLsbD · i)]
  simp only [BitVec.getLsbD_extractLsb', BitVec.getLsbD_or, BitVec.getLsbD_and, BitVec.getLsbD_not,
    BitVec.getLsbD_shiftLeft, hselect, hi, hbit, decide_true, Bool.true_and]
  split
  next hin =>
    have hlow : ¬ 8 * k + i < 8 * d := by omega
    have hhigh : 8 * k + i - 8 * d < 8 * n := by omega
    have hsub : 8 * (k - d) + i = 8 * k + i - 8 * d := by omega
    simp [hlow, hhigh, hsub]
  next hout =>
    have hoff : 8 * k + i < 8 * d ∨ ¬ 8 * k + i - 8 * d < 8 * n := by omega
    rcases hoff with hlow | hhigh
    · simp [hlow]
    · simp [hhigh]

/-- `write32` at an aligned address is a store of the low `n` bytes of `v` at offset `d` if the word written holds these
bytes there and the old word's elsewhere (R62, R63). -/
theorem State.write32_onlyStores {s : State} (hmap : s.map.wellFormed = true) (hmem : s.mem.wf = true)
    {a base v w : Word} {d n : Nat} (hbase : aligned4 base = true) (ha : a.toNat = base.toNat + d) (hn : d + n ≤ 4)
    (hlane : ∀ k < 4, w.extractLsb' (8 * k) 8 =
      if d ≤ k ∧ k < d + n then v.extractLsb' (8 * (k - d)) 8 else (s.read32 base).extractLsb' (8 * k) 8) :
    OnlyStores a n v s (s.write32 base w) := by
  rw [State.write32_eq_setMem]
  refine ⟨fun b => ?_, ⟨rfl, rfl, rfl, fun _ _ => rfl⟩, ⟨rfl, rfl⟩, ⟨rfl, rfl⟩, rfl⟩
  rw [State.byteAt_write32 hmem]
  by_cases hin : base.toNat ≤ b ∧ b < base.toNat + 4
  · obtain ⟨k, rfl⟩ := Nat.exists_eq_add_of_le hin.1
    have hk : k < 4 := by omega
    have hlanes : s.map.mapped (base.toNat + k) = s.map.mapped base.toNat :=
      mapped_lane hmap ((aligned4_iff base).1 hbase) hk
    rw [Nat.add_sub_cancel_left, hlane k hk, State.read32_lane hmap hbase hk, State.byteSeen, hlanes, ha]
    cases s.map.mapped base.toNat <;> simp [Nat.add_assoc, Nat.add_sub_add_left, hk]
  · rw [if_neg (by tauto), if_neg (by omega)]

/-- A merged write of the low `n` bytes of `v`, all within the containing word, stores these bytes (R67). -/
theorem State.mergeWrite_onlyStores {s : State} (hmap : s.map.wellFormed = true) (hmem : s.mem.wf = true)
    {a v mask : Word} {n : Nat} (hmask : ∀ i < 32, mask.getLsbD i = decide (i < 8 * n)) (hn : a.toNat % 4 + n ≤ 4) :
    OnlyStores a n v s (s.mergeWrite a mask v) := by
  have haddr : a.toNat = (wordAddr a).toNat + a.toNat % 4 := by
    rw [toNat_wordAddr]
    omega
  rw [State.mergeWrite, laneShift_eq]
  exact State.write32_onlyStores hmap hmem (aligned4_wordAddr a) haddr hn fun k hk => mergedWord_lane hmask hk

theorem getLsbD_byteMask : ∀ i < 32, (0x000000FF#32).getLsbD i = decide (i < 8 * 1) := by decide

theorem getLsbD_halfwordMask : ∀ i < 32, (0x0000FFFF#32).getLsbD i = decide (i < 8 * 2) := by decide

section
variable {s : State} (hmap : s.map.wellFormed = true) (hmem : s.mem.wf = true) {a : Word} (v : Word)
include hmap hmem

theorem State.memWrite8_onlyStores : OnlyStores a 1 v s (s.memWrite8 a v) :=
  State.mergeWrite_onlyStores hmap hmem getLsbD_byteMask (by omega)

theorem State.memWrite16_onlyStores (ha : aligned2 a = true) : OnlyStores a 2 v s (s.memWrite16 a v) := by
  rw [aligned2_iff] at ha
  exact State.mergeWrite_onlyStores hmap hmem getLsbD_halfwordMask (by omega)

theorem State.memWrite32_onlyStores (ha : aligned4 a = true) : OnlyStores a 4 v s (s.memWrite32 a v) :=
  State.write32_onlyStores hmap hmem ha (d := 0) rfl (by decide) fun k hk => (if_pos ⟨k.zero_le, by omega⟩).symm

end

/-! The stores. -/

/-- SH at an even address completes with one halfword write (R251). -/
theorem exec_sh_of_aligned {s : State} {rt rs : Reg} {imm : BitVec 16} (ha : aligned2 (eaOf s rs imm) = true) :
    exec (.sh rt rs imm) s = .next (s.memWrite16 (eaOf s rs imm) (s.cur.reg rt)) :=
  if_pos ha

/-- Settles O52: the arm is a byte write, at whatever address. -/
theorem storeByte : Obligations.StoreByte := by
  unfold Obligations.StoreByte
  refine ⟨?decode, ?exec⟩
  case decode => exact decodesOpcode_of_decodeDispatch fun _ => rfl
  case exec => exact fun rt _ _ s hmap hmem => ⟨_, rfl, State.memWrite8_onlyStores hmap hmem (s.cur.reg rt)⟩

/-- Settles O53: the parity of the address decides between the halfword write and the error path. -/
theorem storeHalfword : Obligations.StoreHalfword := by
  unfold Obligations.StoreHalfword
  refine ⟨?decode, ?aligned, ?misaligned⟩
  case decode => exact decodesOpcode_of_decodeDispatch fun _ => rfl
  case aligned =>
    intro rt rs imm s hmap hmem ha
    rw [← aligned2_iff_lowBits] at ha
    exact ⟨_, exec_sh_of_aligned ha, State.memWrite16_onlyStores hmap hmem (s.cur.reg rt) ha⟩
  case misaligned => exact fun rt rs imm _ h => exec_onlyHaltsUnaligned (i := .sh rt rs imm) h

/-- Settles O54: the low two bits of the address decide between the word write and the error path. -/
theorem storeWord : Obligations.StoreWord := by
  unfold Obligations.StoreWord
  refine ⟨?decode, ?aligned, ?misaligned⟩
  case decode => exact decodesOpcode_of_decodeDispatch fun _ => rfl
  case aligned =>
    intro rt rs imm s hmap hmem ha
    rw [← aligned4_iff_lowBits] at ha
    exact ⟨_, exec_sw_of_aligned ha, State.memWrite32_onlyStores hmap hmem (s.cur.reg rt) ha⟩
  case misaligned => exact fun rt rs imm _ h => exec_onlyHaltsUnaligned (i := .sw rt rs imm) h

end Sys2Proof.Machine
end

section
/-! SUPPORT. The outcomes of a step (R272, R273, R276) and what a step depends on (R314): the run flag and the counter
ride along, and the rest of what the step before left is overwritten before anything reads it. -/

namespace Sys2Proof.Machine

/-! The outcomes of a step. -/

/-- Settles O12: of the ways a step answers a next state, only the misaligned one has that outcome. -/
theorem unalignedAddressIsRaisedExactly : Obligations.UnalignedAddressIsRaisedExactly := by
  unfold Obligations.UnalignedAddressIsRaisedExactly
  refine ⟨fun s i => step_of_misaligned, fun s t h ht => ?_⟩
  rcases step_cases h with ⟨_, _, rfl⟩ | ⟨i, hf, hm, -⟩ | ⟨i, u, _, _, hn, rfl⟩
  · cases ht
  · exact ⟨i, hf, hm⟩
  · cases hn.outcome.symm.trans ht

/-- Settles O13: both error ways have another outcome, and named changes leave the outcome Ok. -/
theorem arithmeticOverflowIsNeverProduced : Obligations.ArithmeticOverflowIsNeverProduced := by
  unfold Obligations.ArithmeticOverflowIsNeverProduced
  intro s t h ht
  rcases step_cases h with ⟨_, _, rfl⟩ | ⟨_, _, _, rfl⟩ | ⟨i, u, _, _, hn, rfl⟩
  · cases ht
  · cases ht
  · cases hn.outcome.symm.trans ht

/-- An instruction that is no undefined divide answers a next state (R276). -/
theorem exec_next_of_not_undefinedDivide {i : Instr} {s : State} (h : ¬ undefinedDivide s.cur.reg i) :
    ∃ t, exec i s = .next t := by
  cases hexec : exec i s with
  | next t => exact ⟨t, rfl⟩
  | fault f => exact absurd (exec_fault hexec).1 h
  | refused r => exact absurd hexec (exec_ne_refused i s r)

/-- Settles O14: a rejected word takes the error path, and an instruction stops only by an undefined divide. -/
theorem undefinedDivideIsTheOnlyStop : Obligations.UndefinedDivideIsTheOnlyStop := by
  unfold Obligations.UndefinedDivideIsTheOnlyStop
  refine fun s => ⟨fun i hf hi => ?_, fun hdef => ?_⟩
  · rw [step_of_instr hf, exec_undefinedDivide (s := s.beginStep) hi]
    rfl
  · cases hf : s.fetched with
    | reject why => exact ⟨_, step_of_reject hf⟩
    | instr i =>
      obtain ⟨t, ht⟩ := exec_next_of_not_undefinedDivide (s := s.beginStep) (hdef i hf)
      exact ⟨t.commit, by rw [step_of_instr hf, ht]; rfl⟩

/-! The run flag and the counter ride along. -/

/-- Apply `f` to the next state, if there is one. -/
def onNext (f : State → State) : Result → Result
  | .next t => .next (f t)
  | .fault r => .fault r
  | .refused r => .refused r

/-- The state with the run flag lowered unless `b`, and with `n` as its counter. -/
def State.withRunCount (b : Bool) (n : Nat) (s : State) : State :=
  { s with run := s.run && b, count := n }

section
variable (b : Bool) (n : Nat)

theorem State.withRunCount_write32 (s : State) (a v : Word) :
    (s.withRunCount b n).write32 a v = (s.write32 a v).withRunCount b n := by
  rw [State.write32, State.write32, apply_ite (State.withRunCount b n)]
  rfl

theorem State.withRunCount_branchIf (s : State) (c : Bool) (imm : BitVec 16) :
    (s.withRunCount b n).branchIf c imm = (s.branchIf c imm).withRunCount b n := by
  cases c <;> rfl

/-- A check may be made after `onNext` as well as before. -/
theorem onNext_ite {f : State → State} {c : Prop} [Decidable c] {x y x' y' : Result} (hx : x' = onNext f x)
    (hy : y' = onNext f y) : (if c then x' else y') = onNext f (if c then x else y) := by
  rw [hx, hy, apply_ite (onNext f)]

theorem State.beginStep_withRunCount (s : State) :
    (s.withRunCount b n).beginStep = s.beginStep.withRunCount b n := rfl

/-- Executing an instruction reads neither the run flag nor the counter, and can only lower the flag (R26, R27, R43). -/
theorem exec_withRunCount (i : Instr) (s : State) :
    exec i (s.withRunCount b n) = onNext (State.withRunCount b n) (exec i s) := by
  cases i with
  | sb rt rs imm => exact congrArg _ (s.withRunCount_write32 b n _ _)
  | sh rt rs imm | sw rt rs imm => exact onNext_ite (congrArg _ (s.withRunCount_write32 b n _ _)) rfl
  | bltz rs imm | bgez rs imm | beq rs rt imm | bne rs rt imm | blez rs imm | bgtz rs imm =>
    exact congrArg _ (s.withRunCount_branchIf b n _ _)
  | bltzal rs imm | bgezal rs imm => exact congrArg _ ((s.setX 31 s.link).withRunCount_branchIf b n _ _)
  | jr rs | jalr rd rs | lh rt rs imm | lhu rt rs imm | lw rt rs imm | divu rs rt => exact onNext_ite rfl rfl
  | div rs rt => exact onNext_ite rfl (onNext_ite rfl rfl)
  | _ => rfl

end

/-- Of the buffers and the outcome, the prepared state keeps the zeroed committed state alone (R40). -/
theorem State.beginStep_eq (s : State) : s.beginStep =
    { s with cur := s.curZeroed, nxt := { s.curZeroed with pc := s.curZeroed.pc + 4 }, outcome := .ok } := rfl

@[simp] theorem State.withRunCount_curZeroed (b : Bool) (n : Nat) (s : State) :
    (s.withRunCount b n).curZeroed = s.curZeroed := rfl

theorem step_eq_of_beginStep_eq {s t : State} (h : t.beginStep = s.beginStep) : step t = step s := by
  unfold step
  rw [h]

/-- A step reads neither the run flag nor the counter: it can only lower the flag, and it counts itself. -/
theorem step_withRunCount (b : Bool) (n : Nat) (s : State) :
    step (s.withRunCount b n) = onNext (State.withRunCount b (n + 1)) (step s) := by
  cases hf : s.fetched with
  | reject why =>
    rw [step_of_reject hf, step_of_reject (s := s.withRunCount b n) hf]
    rfl
  | instr i =>
    rw [step_of_instr hf, step_of_instr (s := s.withRunCount b n) hf,
      State.beginStep_withRunCount, exec_withRunCount]
    cases exec i s.beginStep <;> rfl

/-- A step from a state that agrees with `base` on what R314 names is the step from `base`, but for the run flag and the
counter. -/
theorem step_eq_onNext {base s : State} (hrun : base.run = true) (hcur : base.curZeroed = s.curZeroed)
    (hmap : base.map = s.map) (hmem : base.mem = s.mem) :
    step s = onNext (State.withRunCount s.run (s.count + 1)) (step base) := by
  have hbegin : s.beginStep = (base.withRunCount s.run s.count).beginStep := by
    rw [State.beginStep_eq, State.beginStep_eq, State.withRunCount_curZeroed, hcur]
    simp [State.withRunCount, hrun, hmap, hmem]
  rw [step_eq_of_beginStep_eq hbegin, step_withRunCount]

/-- Settles O16: both steps are that of the first state with its run flag raised, but for the run flag and the
counter. -/
theorem stepReadsOnlyCommittedStateAndMemory : Obligations.StepReadsOnlyCommittedStateAndMemory := by
  unfold Obligations.StepReadsOnlyCommittedStateAndMemory
  intro s₁ s₂ hcur hmap hmem
  have hstep₁ := step_eq_onNext (base := { s₁ with run := true }) (s := s₁) rfl rfl rfl rfl
  have hstep₂ := step_eq_onNext (base := { s₁ with run := true }) (s := s₂) rfl hcur hmap hmem
  rw [hstep₁, hstep₂]
  cases step { s₁ with run := true } with
  | next u =>
    refine ⟨?_, fun _ h => nomatch h⟩
    rintro _ ⟨⟩
    exact ⟨_, rfl, rfl, rfl, rfl, rfl, rfl, rfl, rfl, fun hrun => congrArg (u.run && ·) hrun.symm⟩
  | fault f => exact ⟨fun _ h => (nomatch h), fun _ h => h⟩
  | refused r => exact ⟨fun _ h => (nomatch h), fun _ h => h⟩

end Sys2Proof.Machine
end

section
/-! SUPPORT. The loader (R306): what it writes stays in place, because each later word of the image lies above. -/

namespace Sys2Proof.Machine

@[simp] theorem State.loadFrom_map : ∀ (ws : List Word) (s : State) (a : Word), (s.loadFrom a ws).map = s.map
  | [], _, _ => rfl
  | w :: ws, s, a => (State.loadFrom_map ws (s.write32 a w) (a + 4)).trans (s.write32_map a w)

/-- The loader's first word is one `write32`, and the others go from the next word's address on (R306, D16). -/
theorem State.loadFrom_cons (s : State) (n : Nat) (w : Word) (ws : List Word) :
    s.loadFrom (BitVec.ofNat 32 n) (w :: ws) =
      (s.write32 (BitVec.ofNat 32 n) w).loadFrom (BitVec.ofNat 32 (n + 4)) ws := by
  rw [State.loadFrom, BitVec.ofNat_add]
  rfl

/-- The loader keeps every byte outside the image. -/
theorem State.byteAt_loadFrom_outside : ∀ (ws : List Word) {s : State} {n : Nat}, s.mem.wf = true →
    n + 4 * ws.length ≤ 2 ^ 32 → ∀ b, b < n ∨ n + 4 * ws.length ≤ b →
    (s.loadFrom (BitVec.ofNat 32 n) ws).mem.byteAt b = s.mem.byteAt b
  | [], _, _, _, _, _, _ => rfl
  | w :: ws, s, n, hmem, hend, b, hb => by
    rw [List.length_cons] at hend hb
    have hn : n % 2 ^ 32 = n := Nat.mod_eq_of_lt (by omega)
    rw [State.loadFrom_cons, State.byteAt_loadFrom_outside ws (State.write32_wf _ w hmem) (by omega) b (by omega),
      State.byteAt_write32 hmem, BitVec.toNat_ofNat, hn]
    exact if_neg (by omega)

/-- `read32` depends on the map and on the four bytes from the address on. -/
theorem State.read32_congr_bytes {s t : State} (hmap : t.map = s.map) {a : Word}
    (hbytes : ∀ k < 4, t.mem.byteAt (a.toNat + k) = s.mem.byteAt (a.toNat + k)) : t.read32 a = s.read32 a := by
  have hword : t.mem.wordAt a.toNat = s.mem.wordAt a.toNat := by
    have hbyte0 : t.mem.byteAt a.toNat = s.mem.byteAt a.toNat := hbytes 0 (by decide)
    rw [Memory.wordAt, Memory.wordAt, hbyte0, hbytes 1 (by decide), hbytes 2 (by decide), hbytes 3 (by decide)]
  rw [State.read32, State.read32, hmap, hword]

/-- The loader keeps every word below the image. -/
theorem State.read32_loadFrom_below (ws : List Word) {s : State} {n : Nat} {a : Word} (hmem : s.mem.wf = true)
    (hend : n + 4 * ws.length ≤ 2 ^ 32) (ha : a.toNat + 4 ≤ n) :
    (s.loadFrom (BitVec.ofNat 32 n) ws).read32 a = s.read32 a :=
  State.read32_congr_bytes (State.loadFrom_map _ _ _) fun _ _ =>
    State.byteAt_loadFrom_outside ws hmem hend _ (by omega)

/-- Word `k` of an image whose words are all mapped is read at `n + 4 * k` after the loader. -/
theorem State.read32_loadFrom : ∀ (ws : List Word) {s : State} {n : Nat}, s.mem.wf = true →
    n + 4 * ws.length ≤ 2 ^ 32 → (∀ k < ws.length, s.map.mapped (n + 4 * k) = true) →
    ∀ (k : Nat) (hk : k < ws.length), (s.loadFrom (BitVec.ofNat 32 n) ws).read32 (BitVec.ofNat 32 (n + 4 * k)) = ws[k]
  | w :: ws, s, n, hmem, hend, hmapped, k, hk => by
    rw [List.length_cons] at hend
    have hmem' := State.write32_wf (BitVec.ofNat 32 n) w hmem
    rw [State.loadFrom_cons]
    cases k with
    | zero =>
      have hn : (BitVec.ofNat 32 n).toNat = n := Nat.mod_eq_of_lt (by omega)
      have hfirst : s.map.mapped (BitVec.ofNat 32 n).toNat = true := hn.symm ▸ hmapped 0 (Nat.succ_pos _)
      change State.read32 _ (BitVec.ofNat 32 n) = w
      rw [State.read32_loadFrom_below ws hmem' (by omega) (by omega), State.read32_write32_same hmem, if_pos hfirst]
    | succ k =>
      have hk' : k < ws.length := Nat.lt_of_succ_lt_succ hk
      have hnext (k : Nat) : n + 4 * (k + 1) = n + 4 + 4 * k := by omega
      rw [hnext, State.read32_loadFrom ws hmem' (by omega) (fun j hj => ?_) k hk']
      · rfl
      · rw [State.write32_map, ← hnext]
        exact hmapped (j + 1) (Nat.succ_lt_succ hj)

/-- Settles O26: an image that fits in TEXT lies in the space and its words are mapped. -/
theorem loadedImageIsInPlace : Obligations.LoadedImageIsInPlace := by
  unfold Obligations.LoadedImageIsInPlace
  intro s image hmap hmem hfits
  have htext : s.map.text ∈ s.map.regions := List.mem_cons_self
  obtain ⟨-, -, hspace⟩ := wellFormed_region hmap htext
  have hend : s.map.text.base + 4 * image.length ≤ 2 ^ 32 := by omega
  have hmapped : ∀ k < image.length, s.map.mapped (s.map.text.base + 4 * k) = true := fun k hk =>
    (mapped_iff _ _).2 ⟨_, htext, by omega, by omega⟩
  exact ⟨State.read32_loadFrom image hmem hend hmapped, State.byteAt_loadFrom_outside image hmem hend⟩

end Sys2Proof.Machine
end
